-- ==== Sys2Proof/Word.lean ====
section
/-! DEFINITION. The value types of R6: bytes, 32-bit words, fixed-length byte sequences. -/

namespace Sys2Proof

/-- A byte is an 8-bit unsigned value (R6). -/
abbrev Byte := BitVec 8

/-- A 32-bit word; addition and left shift wrap modulo 2^32 and every comparison is unsigned (R6). -/
abbrev Word := BitVec 32

/-- `Bytes n` is a sequence of `n` bytes indexed from 0; `a ++ b` is concatenation, `a` first (R6). -/
abbrev Bytes (n : Nat) := Vector Byte n

end Sys2Proof
end

