-- ==== Sys2Proof/Config.lean ====
section
/-! DEFINITION. The implementation parameters of R5, as plain data, and the free values of
93_implementation_defined.md. A parameter is a field of `Config` that State carries and no step changes;
a free value is an opaque constant, so that nothing can be proved of what it is. -/

namespace Sys2Proof

/-- The two readings of the 256-entry CRC table (R68; 90_conflicts.md C2; parameter CRC_TABLE of R5). -/
inductive CrcTable where
  /-- The decided table: MSB-first, polynomial 0x04C11DB7 (R68). -/
  | msbFirst
  /-- The alternative reading: the reflected table, polynomial 0xEDB88320 (R68, closing paragraph). -/
  | reflected
deriving DecidableEq, Repr

/-- A byte order of a stored 32-bit word (parameter CRC_STORE_ORDER of R5; R94). -/
inductive ByteOrder where
  | little
  | big
deriving DecidableEq, Repr

/-- The parameter AES128_ENC of R5. The spec assumes FIPS-197 and leaves the function a parameter:
`other n` is any other block cipher, of which nothing is known. -/
inductive Cipher where
  | fips197
  | other (id : Nat)
deriving DecidableEq, Repr

/-- The parameters of R5 that are not the same for every machine. KEY_BYTES, WRAP_N and NUM_CTX are fixed
by R5 and stand in the types. -/
structure Config where
  /-- FLASH_BASE, OPEN: the platform's flash base address, read by the range check (R29, R95). -/
  flashBase : Word
  /-- BLOCK_BASE, OPEN: the system address of the register window (R18, R46). -/
  blockBase : Nat
  /-- DATA_CAP: capacity in bytes of each data buffer, a multiple of 16 not above 0x100000 (R5). -/
  dataCap : Nat
  /-- CRC_TABLE (R68). -/
  crcTable : CrcTable
  /-- CRC_STORE_ORDER (R94). -/
  crcStoreOrder : ByteOrder
  /-- AES128_ENC (R12). -/
  cipher : Cipher
  /-- FLAG_RO, OPEN; no rule of the core reads it (R99). -/
  flagRo : Word
  /-- FLAG_ADE, OPEN; no rule of the core reads it (R99). -/
  flagAde : Word
  /-- FLAG_VLD, OPEN; no rule of the core reads it (R99). -/
  flagVld : Word
  /-- END_RSVD_PATTERN, OPEN; no rule of the core reads it (R99). -/
  endRsvdPattern : Word
deriving DecidableEq, Repr

/-- R5 admits as DATA_CAP any multiple of 16 not above 0x100000. -/
abbrev Config.Legal (c : Config) : Prop := c.dataCap % 16 = 0 ∧ c.dataCap ≤ 0x100000

/-- The value of the OPEN parameter FLASH_BASE (R5; 91_not_in_source.md N4). -/
opaque Config.openFlashBase : Word
/-- The value of the OPEN parameter BLOCK_BASE (R5). -/
opaque Config.openBlockBase : Nat
/-- The value of the OPEN parameter FLAG_RO (R5; 91_not_in_source.md N5). -/
opaque Config.openFlagRo : Word
/-- The value of the OPEN parameter FLAG_ADE (R5; 91_not_in_source.md N5). -/
opaque Config.openFlagAde : Word
/-- The value of the OPEN parameter FLAG_VLD (R5; 91_not_in_source.md N5). -/
opaque Config.openFlagVld : Word
/-- The value of the OPEN parameter END_RSVD_PATTERN (R5; 91_not_in_source.md N5). -/
opaque Config.openEndRsvdPattern : Word

/-- The machine as R5 gives it: the decided values where it decides, the OPEN constants where it does not.
PRESUMED (log 1): the cipher is FIPS-197, from general knowledge (93_implementation_defined.md G1), unsafe. -/
def Config.chip : Config where
  flashBase := Config.openFlashBase
  blockBase := Config.openBlockBase
  dataCap := 0x100000
  crcTable := .msbFirst
  crcStoreOrder := .little
  cipher := .fips197
  flagRo := Config.openFlagRo
  flagAde := Config.openFlagAde
  flagVld := Config.openFlagVld
  endRsvdPattern := Config.openEndRsvdPattern

/-- The cipher function of the parameter value `Cipher.other id` (R5: an argument of the model). -/
opaque Config.otherCipher : Nat → Bytes 16 → Bytes 16 → Bytes 16

/-- Free value: whether the n-th AES invocation of the machine's life reports failure (AES_FAULT, R12). -/
opaque Config.aesFault : Nat → Bool

/-- Free value: how many host steps pass between the n-th acceptance of a command and its engine step
(R15, R139: finite, and not bounded). -/
opaque Config.engineDelay : Nat → Nat

/-- Free value: the word that the n-th read of a pending command's output returns (R58). -/
opaque Config.busyRead : Nat → Word

/-- Free value: the content of a data-buffer byte that nothing has written, by the number of resets so far
and the byte's window offset: one draw per byte, fixed until the byte is written (R131). -/
opaque Config.unwrittenByte : Nat → Nat → Byte

end Sys2Proof
end

