-- ==== Sys2Proof/Syntax.lean ====
section
/-! DEFINITION. The commands of the core: one constructor per row of spec/opcode_table.json (R64). No
command has an operand field (R62, R66), so no constructor has an argument. -/

namespace Sys2Proof

/-- The seven commands (R64). -/
inductive Instr where
  /-- CRC32, OP = 0x1 (R71). -/
  | crc32
  /-- SCRAMBLE, OP = 0x2 (R75). -/
  | scramble
  /-- BUILD_BLOB, OP = 0x3 (R96). -/
  | buildBlob
  /-- KWRAP, OP = 0x4 (R82). -/
  | kwrap
  /-- BLOB_SWAP, OP = 0x5 (R86). -/
  | blobSwap
  /-- EXT_CTR, OP = 0x6 (R105). -/
  | extCtr
  /-- CTR_CRYPT, OP = 0x7 (R107). -/
  | ctrCrypt
deriving DecidableEq, Repr

end Sys2Proof
end

