-- ==== Sys2Proof/Machine/State.lean ====
section
/-! DEFINITION. The state of OTFAD-CORE as plain data, the outcomes' reasons, and the state after reset. -/

namespace Sys2Proof.Machine

/-- The errors a command can end with (R116). -/
inductive CmdError where
  /-- Code 1 (R117). -/
  | inputSizeMismatch
  /-- Code 2 (R118). -/
  | blockCipherFailure
  /-- Code 3 (R119). -/
  | addressRangeInvalid
  /-- Code 4 (R122). -/
  | illegalCommand
deriving DecidableEq, Repr

/-- The registers and buffers of the window (R18). -/
inductive Reg where
  | cmd
  | status
  | len
  | ctxSel
  | align
  | scr
  | startAddr
  | endAddr
  | endFlags
  | baseAddr
  | flashBase
  | crcResult
  | kek
  | skek
  | imgKey
  | ctr8
  | iv
  | ctr16
  | blobPt
  | blobCt
  | dataIn
  | dataOut
deriving DecidableEq, Repr

/-- The widths of a host access other than the legal 32 bits (R48). -/
inductive AccessWidth where
  | w8
  | w16
  | w64
  | burst
deriving DecidableEq, Repr

/-- One host operation (R67). Offsets are bytes from BLOCK_BASE. Labels are numbers, the spec's names for
places in the program. -/
inductive HostOp where
  /-- `WR off, value`: one 32-bit host write. -/
  | wr (off : Nat) (value : Word)
  /-- `RD off`: one 32-bit host read, its value recorded in the trace. -/
  | rd (off : Nat)
  /-- `name:`, a place in the host program. -/
  | label (name : Nat)
  /-- `BNZ off, mask, target`: one 32-bit host read; if value and mask is not 0, continue at the label. R67 writes
  `<reg>` here and `<reg or offset>` for WR and RD; that a BNZ too takes any offset is the model's. DESIGN CHOICE
  (log 28). -/
  | bnz (off : Nat) (mask : Word) (target : Nat)
  /-- An access of any other width (R48). -/
  | otherWidth (width : AccessWidth) (isWrite : Bool) (off : Nat)
  /-- Any operation outside the forms of R67 (R125). -/
  | foreign
deriving DecidableEq, Repr

/-- Why a run ends in a fault. -/
inductive Fault where
  /-- HostBusError (R48, R125). Raised by a host read or write that is not an aligned 32-bit access to a
  listed offset. Safe: the spec says the run ends here, and the machine does no more. -/
  | hostBusError
deriving DecidableEq, Repr

/-- Why a step has no meaning. -/
inductive Refusal where
  /-- Raised by exec for an instruction that has no meaning yet (none is left). Safe: it stops. -/
  | notModelled (mnemonic : String)
  /-- Raised by a host operation outside the forms of R67, which R125 says the model refuses. Safe. -/
  | foreignHostOp
  /-- Raised by a taken BNZ whose label does not stand exactly once in the host program, so that R67 names
  no place to continue at. Safe: it stops. -/
  | undefinedLabel
deriving DecidableEq, Repr

/-- A supply of draws of one kind. The next draws are those of `script`; after them, draw number n is the
free value of n, an opaque constant of Config. `script` is empty at reset; it is there so that a premise
about draws, such as R138 (a), has states that meet it. -/
structure Draws (α : Type) where
  script : List α
  used : Nat
deriving DecidableEq, Repr

/-- Memory: the data-buffer bytes that have been written, as (window offset, byte) pairs in strictly rising
order of offset. An offset that is not listed has not been written since reset: it has no stored value, and
what it reads as is the free value `Config.unwrittenByte` (R131). -/
abbrev Memory := List Host.Cell

/-- The whole state: the core's registers and buffers (R18 to R43), its parameters (R5), the host agent
(R14, R67), and the model's own fields that carry inputs and draws. -/
structure State where
  /-- PENDING: none, or the accepted command word (R43). STATUS.BUSY is 1 exactly when it is not none. -/
  pending : Option Word
  /-- STATUS.DONE (R20). -/
  done : Bool
  /-- STATUS.OVR (R20). -/
  ovr : Bool
  /-- STATUS.ERR, none standing for code 0 (R20, R116). -/
  err : Option CmdError
  /-- LEN (R21). -/
  len : Word
  /-- CTX_SEL bits [1:0]; the other bits have no storage (R22). -/
  ctxSel : BitVec 2
  /-- ALIGN bits [7:0]; the other bits have no storage (R23). -/
  align : Byte
  /-- SCR, the four scramble bytes (R24, R50). -/
  scr : Bytes 4
  /-- START_ADDR (R25). -/
  startAddr : Word
  /-- END_ADDR (R26). -/
  endAddr : Word
  /-- END_FLAGS (R27). -/
  endFlags : Word
  /-- BASE_ADDR (R28). -/
  baseAddr : Word
  /-- CRC_RESULT (R30). -/
  crcResult : Word
  /-- KEK (R31). -/
  kek : Bytes 16
  /-- SKEK (R32). -/
  skek : Bytes 16
  /-- IMG_KEY (R33). -/
  imgKey : Bytes 16
  /-- CTR8 (R34). -/
  ctr8 : Bytes 8
  /-- IV (R35). -/
  iv : Bytes 8
  /-- CTR16 (R36). -/
  ctr16 : Bytes 16
  /-- BLOB_PT (R37). -/
  blobPt : Bytes 40
  /-- BLOB_CT bytes 0..47; bytes 48..63 are hard-wired to 0 (R38). -/
  blobCt : Bytes 48
  /-- DATA_IN and DATA_OUT (R39, R40, R49). -/
  mem : Memory
  /-- The parameters of R5; FLASH_BASE is also the register of R29. -/
  cfg : Config
  /-- The host program (R67). -/
  program : List HostOp
  /-- The index of the host's next operation. -/
  hostPc : Nat
  /-- The values RD recorded, oldest first (R67). -/
  trace : List Word
  /-- Model field: how many host steps pass before the engine performs the pending command (R15). -/
  delay : Nat
  /-- Model field: the draws of that number, one per acceptance. -/
  delays : Draws Nat
  /-- Model field: the draws of AES_FAULT, one per AES invocation (R12). -/
  aesDraws : Draws Bool
  /-- Model field: the draws of reads while busy (R58). -/
  busyReads : Draws Word
  /-- Model field: the number of resets so far, which makes the buffer draws of R131 fresh after each. -/
  resets : Nat
  /-- Model field: the reset input; a step that finds it true is a reset (R133). -/
  resetPin : Bool
deriving DecidableEq, Repr

/-- No draw is scripted and none is used. DESIGN CHOICE (log 21). -/
def noDraws (α : Type) : Draws α := ⟨[], 0⟩

/-- The machine right after reset (R131). The host agent has no program; logs 6 and 21 name the values of
the fields that are the model's own. -/
def State.reset : State where
  pending := none
  done := false
  ovr := false
  err := none
  len := 0
  ctxSel := 0
  align := 0
  scr := Vector.replicate 4 0
  startAddr := 0
  endAddr := 0
  endFlags := 0
  baseAddr := 0
  crcResult := 0
  kek := Vector.replicate 16 0
  skek := Vector.replicate 16 0
  imgKey := Vector.replicate 16 0
  ctr8 := Vector.replicate 8 0
  iv := Vector.replicate 8 0xA6
  ctr16 := Vector.replicate 16 0
  blobPt := Vector.replicate 40 0
  blobCt := Vector.replicate 48 0
  mem := []
  cfg := Config.chip
  program := []
  hostPc := 0
  trace := []
  delay := 0
  delays := noDraws Nat
  aesDraws := noDraws Bool
  busyReads := noDraws Word
  resets := 0
  resetPin := false

end Sys2Proof.Machine
end

