-- ==== Sys2Proof/WellFormed.lean ====
section
/-! DEFINITION. The static checks: of a command word (R62 to R65), of an instruction, of a configuration
(R5) and of a host program (R67). -/

namespace Sys2Proof.WellFormed

/-- RSVD, bits [31:4] of a command word, must be 0 (R62, R63). -/
def reservedClear (w : Word) : Bool := w.extractLsb 31 4 == 0

/-- OP, bits [3:0] of a command word, is one of the assigned codes 0x1 to 0x7 (R64, R65). -/
def opAssigned (w : Word) : Bool :=
  let op := (w.extractLsb 3 0).toNat
  1 ≤ op && op ≤ 7

/-- A legal command word (R65). -/
def commandWord (w : Word) : Bool := reservedClear w && opAssigned w

/-- DATA_CAP is a multiple of 16 not above 0x100000 (R5). -/
def config (c : Config) : Bool := decide c.Legal

open Sys2Proof.Machine

/-- No place is named twice (R67: a label is a place in the host program). -/
def labelsDistinct (p : List HostOp) : Bool :=
  p.all fun op => match op with
    | .label l => p.count (.label l) == 1
    | .wr _ _ => true
    | .rd _ => true
    | .bnz _ _ _ => true
    | .otherWidth _ _ _ => true
    | .foreign => true

/-- Every branch goes to a place of the program (R67). -/
def targetsDefined (p : List HostOp) : Bool :=
  p.all fun op => match op with
    | .bnz _ _ l => p.contains (.label l)
    | .wr _ _ => true
    | .rd _ => true
    | .label _ => true
    | .otherWidth _ _ _ => true
    | .foreign => true

/-- Every operation has a form of R67, with a 32-bit access. -/
def formsKnown (p : List HostOp) : Bool :=
  p.all fun op => match op with
    | .wr _ _ => true
    | .rd _ => true
    | .label _ => true
    | .bnz _ _ _ => true
    | .otherWidth _ _ _ => false
    | .foreign => false

/-- A host program in the forms of R67. -/
def hostProgram (p : List HostOp) : Bool := labelsDistinct p && targetsDefined p && formsKnown p

end Sys2Proof.WellFormed

namespace Sys2Proof

/-- A command has no operand field (R62, R66), so nothing of an instruction can be ill-formed. -/
def Instr.wf : Instr → Bool
  | .crc32 => true
  | .scramble => true
  | .buildBlob => true
  | .kwrap => true
  | .blobSwap => true
  | .extCtr => true
  | .ctrCrypt => true

end Sys2Proof
end

