-- ==== Sys2Proof/Decode.lean ====
section
/-! DEFINITION. Decoding a command word (R62 to R65), total on all 2^32 words, and the encoder. -/

namespace Sys2Proof

/-- Why a word is no command (R65). -/
inductive DecodeError where
  /-- RSVD is not 0 (R63). -/
  | reservedBits
  /-- OP is 0x0 or 0x8 to 0xF (R65). -/
  | unassignedOp
deriving DecidableEq, Repr

/-- The field OP = [3:0] (R62). -/
def opField (w : Word) : BitVec 4 := w.extractLsb 3 0

/-- The field RSVD = [31:4] (R62). -/
def rsvdField (w : Word) : BitVec 28 := w.extractLsb 31 4

/-- The opcode map (R64). -/
def decodeOp (op : BitVec 4) : Except DecodeError Instr :=
  match op.toNat with
  | 1 => .ok .crc32
  | 2 => .ok .scramble
  | 3 => .ok .buildBlob
  | 4 => .ok .kwrap
  | 5 => .ok .blobSwap
  | 6 => .ok .extCtr
  | 7 => .ok .ctrCrypt
  | _ => .error .unassignedOp

/-- The decoder. The reserved bits are checked first, whatever OP holds (R63). -/
def decode (w : Word) : Except DecodeError Instr :=
  if rsvdField w ≠ 0 then .error .reservedBits else decodeOp (opField w)

/-- The code of a command (R64). -/
def opCode : Instr → BitVec 4
  | .crc32 => 0x1
  | .scramble => 0x2
  | .buildBlob => 0x3
  | .kwrap => 0x4
  | .blobSwap => 0x5
  | .extCtr => 0x6
  | .ctrCrypt => 0x7

/-- The encoder: the encoding of command OP = v is the word v, bits [31:4] zero (R64). -/
def encode (i : Instr) : Word := 0#28 ++ opCode i

/-- What the decoder reads from a word numbered as spec/opcode_table.json numbers it: one 32-bit word, bits
above `nbits` zero. -/
def decodeTableWord (nbits w : Nat) : Option Instr :=
  (decode (BitVec.ofNat 32 (w % 2 ^ nbits))).toOption

end Sys2Proof
end

