-- ==== Sys2Proof/Machine/Bytes.lean ====
section
/-! DEFINITION. Byte sequences and byte orders (R6, R7, R8, R13, R50). -/

namespace Sys2Proof.Machine

/-- `b[i .. i+len)` (R6). Every use has `i + len` at most the length, so the filler byte is never read. -/
def slice {n : Nat} (b : Bytes n) (i len : Nat) : Bytes len :=
  Vector.ofFn fun k => (b[i + k.val]?).getD 0

/-- `a xor b` on byte sequences (R8). -/
def xorBytes {n : Nat} (a b : Bytes n) : Bytes n := Vector.ofFn fun i => a[i] ^^^ b[i]

/-- All bytes 0. -/
def zeroBytes (n : Nat) : Bytes n := Vector.replicate n 0

/-- `LE32(v)` (R7). -/
def le32 (v : Word) : Bytes 4 :=
  #v[v.extractLsb' 0 8, v.extractLsb' 8 8, v.extractLsb' 16 8, v.extractLsb' 24 8]

/-- `BE32(v)` (R7). -/
def be32 (v : Word) : Bytes 4 :=
  #v[v.extractLsb' 24 8, v.extractLsb' 16 8, v.extractLsb' 8 8, v.extractLsb' 0 8]

/-- `fromLE32(b)` (R7). -/
def fromLE32 (b : Bytes 4) : Word := b[3] ++ b[2] ++ b[1] ++ b[0]

/-- `fromBE32(b)` (R7). -/
def fromBE32 (b : Bytes 4) : Word := b[0] ++ b[1] ++ b[2] ++ b[3]

/-- `bitrev8(x)`: bit k of the result is bit 7 - k of `x` (R8). The core never applies it (R77). -/
def bitrev8 (x : Byte) : Byte := x.reverse

/-- `MSB64(b)` (R13). -/
def msb64 (b : Bytes 16) : Bytes 8 := slice b 0 8

/-- `LSB64(b)` (R13). -/
def lsb64 (b : Bytes 16) : Bytes 8 := slice b 8 8

/-- Word `k` of a byte-array register: `fromLE32(REG[4k .. 4k+4))` (R50). -/
def wordAt {n : Nat} (b : Bytes n) (k : Nat) : Word := fromLE32 (slice b (4 * k) 4)

/-- `REG[4k .. 4k+4) <- LE32(w)`, the other bytes unchanged (R9, R50). -/
def setWordAt {n : Nat} (b : Bytes n) (k : Nat) (w : Word) : Bytes n :=
  Vector.ofFn fun i => if i.val / 4 = k then (le32 w)[i.val % 4]'(Nat.mod_lt _ (by decide)) else b[i]

end Sys2Proof.Machine
end

