-- ==== Sys2Proof/Machine/Ops.lean ====
section
/-! DEFINITION. The shared operations: memory, draws, accepting a command, completing one (with success or
with an error), and reset. -/

namespace Sys2Proof.Machine

/-! ### Memory -/

/-- The byte stored at an offset, none where nothing has been written. -/
def Memory.read : Memory → Nat → Option Byte
  | [], _ => none
  | (x, y) :: m, a => if a = x then some y else Memory.read m a

/-- Store one byte, keeping the list in strictly rising order. -/
def Memory.write : Memory → Nat → Byte → Memory
  | [], a, b => [(a, b)]
  | (x, y) :: m, a, b =>
    if a < x then (a, b) :: (x, y) :: m
    else if a = x then (a, b) :: m
    else (x, y) :: Memory.write m a b

/-- Store consecutive bytes from an offset on. -/
def Memory.writeBytes : Memory → Nat → List Byte → Memory
  | m, _, [] => m
  | m, a, b :: bs => Memory.writeBytes (Memory.write m a b) (a + 1) bs

/-- The canonical form: offsets in strictly rising order. An unlisted offset has no stored value, so no entry
can equal it. -/
abbrev Memory.wf (m : Memory) : Prop := List.Pairwise (fun c d : Host.Cell => c.1 < d.1) m

/-! ### Draws -/

/-- The k-th draw from here on: the script's, then the free values. -/
def Draws.draw {α : Type} (free : Nat → α) (d : Draws α) (k : Nat) : α :=
  (d.script[k]?).getD (free (d.used + k))

/-- After one draw. -/
def Draws.advance {α : Type} (d : Draws α) : Draws α := ⟨d.script.drop 1, d.used + 1⟩

/-! ### The data buffers (R10, R49) -/

/-- Window offset of byte 0 of DATA_IN (R18). -/
def dataInBase : Nat := 0x100000

/-- Window offset of byte 0 of DATA_OUT (R18). -/
def dataOutBase : Nat := 0x200000

/-- The data-buffer byte at a window offset: what was written last, or the byte's draw (R131). -/
def State.bufByte (s : State) (off : Nat) : Byte :=
  (s.mem.read off).getD (Config.unwrittenByte s.resets off)

/-- `MemRead(buf, off, n)` with the buffer given by its base offset (R10). -/
def State.memRead (s : State) (base off n : Nat) : List Byte :=
  (List.range n).map fun k => s.bufByte (base + off + k)

/-- `MemWrite(buf, off, n, v)` with the buffer given by its base offset, n being the length of v (R10). -/
def State.memWrite (s : State) (base off : Nat) (v : List Byte) : State :=
  { s with mem := s.mem.writeBytes (base + off) v }

/-! ### Accepting and completing a command -/

/-- STATUS.BUSY (R20, R43). -/
def State.busy (s : State) : Bool := s.pending.isSome

/-- A write to CMD while idle, whatever the word (R61). The delay of the engine step is drawn here (R15). -/
def accept (w : Word) (s : State) : State :=
  { s with
    pending := some w
    done := false
    err := none
    delay := s.delays.draw Config.engineDelay 0
    delays := s.delays.advance }

/-- The end of every engine step (R120). An error takes no trap: it is recorded here and nowhere else
(R115). -/
def complete (e : Option CmdError) (s : State) : State :=
  { s with err := e, done := true, pending := none }

/-- `raise e` (R11): the command ends with the error and writes nothing else. -/
def raise (e : CmdError) (s : State) : State := complete (some e) s

/-- A command that raised no error (R120). -/
def succeed (s : State) : State := complete none s

/-! ### Reset -/

/-- A reset of the core (R131, R133). The parameters, the host agent and the draws used so far stay, since
none of them is state of the core; the buffer bytes get fresh draws (log 7). -/
def coreReset (s : State) : State :=
  { State.reset with
    cfg := s.cfg
    program := s.program
    hostPc := s.hostPc
    trace := s.trace
    delays := s.delays
    aesDraws := s.aesDraws
    busyReads := s.busyReads
    resets := s.resets + 1
    resetPin := false }

end Sys2Proof.Machine
end

