-- ==== Sys2Proof/Machine/Crc32.lean ====
section
/-! DEFINITION. The CRC and the CRC32 command (41_crc32.md). -/

namespace Sys2Proof.Machine

/-- One shift of the generation of the MSB-first table (R68). -/
def crcShift (c : Word) : Word := if c.getLsbD 31 then (c <<< 1) ^^^ 0x04C11DB7 else c <<< 1

/-- One shift of the generation of the reflected table, polynomial 0xEDB88320.
PRESUMED (log 11): R68 names the table and does not spell out its generation, unsafe. -/
def crcShiftReflected (c : Word) : Word := if c.getLsbD 0 then (c >>> 1) ^^^ 0xEDB88320 else c >>> 1

/-- Entry i of the CRC table (R68). -/
def crcTableEntry (t : CrcTable) (i : Byte) : Word :=
  match t with
  | .msbFirst => Nat.repeat crcShift 8 (i.setWidth 32 <<< 24)
  | .reflected => Nat.repeat crcShiftReflected 8 (i.setWidth 32)

/-- The update step, as the source's formula has it (R69). -/
def crcStep (t : CrcTable) (crc : Word) (b : Byte) : Word :=
  let idx : Byte := crc.extractLsb' 24 8 ^^^ b
  ((crc <<< 8) ^^^ (crcTableEntry t idx &&& 0xFFFFFF00)) ||| (crcTableEntry t idx &&& 0x000000FF)

/-- The CRC of a byte sequence: initial value all ones, no final inversion (R70). -/
def crc32 (t : CrcTable) (data : List Byte) : Word := data.foldl (crcStep t) 0xFFFFFFFF

/-- CRC32 (R71). -/
def execCrc32 (s : State) : Host.Outcome State Fault Refusal :=
  .next <|
    if s.cfg.dataCap < s.len.toNat then raise .inputSizeMismatch s
    else succeed { s with crcResult := crc32 s.cfg.crcTable (s.memRead dataInBase 0 s.len.toNat) }

end Sys2Proof.Machine
end

