-- ==== Sys2Proof/Machine/Aes.lean ====
section
/-! DEFINITION. The block cipher primitive of R12. The cipher itself is out of the spec's scope (R4) and a
parameter (R5); the value the spec assumes for it, FIPS-197 AES-128 encryption, is written here.
PRESUMED (log 1): FIPS-197 is general knowledge (93_implementation_defined.md G1, G2), unsafe. -/

namespace Sys2Proof.Machine

/-- The S-box of FIPS-197, one row of 16 bytes a number, column 0 the most significant. -/
def aesSboxRows : List Nat :=
  [0x637C777BF26B6FC53001672BFED7AB76, 0xCA82C97DFA5947F0ADD4A2AF9CA472C0,
    0xB7FD9326363FF7CC34A5E5F171D83115, 0x04C723C31896059A071280E2EB27B275,
    0x09832C1A1B6E5AA0523BD6B329E32F84, 0x53D100ED20FCB15B6ACBBE394A4C58CF,
    0xD0EFAAFB434D338545F9027F503C9FA8, 0x51A3408F929D38F5BCB6DA2110FFF3D2] ++
  [0xCD0C13EC5F974417C4A77E3D645D1973, 0x60814FDC222A908846EEB814DE5E0BDB,
    0xE0323A0A4906245CC2D3AC629195E479, 0xE7C8376D8DD54EA96C56F4EA657AAE08,
    0xBA78252E1CA6B4C6E8DD741F4BBD8B8A, 0x703EB5664803F60E613557B986C11D9E,
    0xE1F8981169D98E949B1E87E9CE5528DF, 0x8CA1890DBFE6426841992D0FB054BB16]

/-- The S-box of one byte: the high nibble names the row, the low one the column. -/
def aesSbox (x : Byte) : Byte :=
  BitVec.ofNat 8 (((aesSboxRows[x.toNat / 16]?).getD 0) >>> (8 * (15 - x.toNat % 16)))

/-- Multiplication by x in GF(2^8) modulo x^8 + x^4 + x^3 + x + 1. -/
def aesXtime (x : Byte) : Byte := if x.msb then (x <<< 1) ^^^ 0x1B else x <<< 1

/-- SubBytes. -/
def aesSubBytes (s : Bytes 16) : Bytes 16 := Vector.ofFn fun i => aesSbox s[i]

/-- ShiftRows: byte r + 4c of the block is row r, column c of the state (G2), and row r moves left by r. -/
def aesShiftRows (s : Bytes 16) : Bytes 16 :=
  Vector.ofFn fun i => s[(i.val + 4 * (i.val % 4)) % 16]'(Nat.mod_lt _ (by decide))

/-- MixColumns: row r of a column becomes 2 a_r + 3 a_(r+1) + a_(r+2) + a_(r+3). -/
def aesMixColumns (s : Bytes 16) : Bytes 16 :=
  Vector.ofFn fun i =>
    let a (k : Nat) : Byte := s[4 * (i.val / 4) + (i.val + k) % 4]'(by omega)
    aesXtime (a 0) ^^^ (aesXtime (a 1) ^^^ a 1) ^^^ a 2 ^^^ a 3

/-- The next round key of AES-128. -/
def aesNextKey (k : Bytes 16) (rcon : Byte) : Bytes 16 :=
  let t : Bytes 4 := #v[aesSbox k[13] ^^^ rcon, aesSbox k[14], aesSbox k[15], aesSbox k[12]]
  let w0 := xorBytes (slice k 0 4) t
  let w1 := xorBytes (slice k 4 4) w0
  let w2 := xorBytes (slice k 8 4) w1
  let w3 := xorBytes (slice k 12 4) w2
  w0 ++ w1 ++ w2 ++ w3

/-- The rounds, one per round constant; the last has no MixColumns. -/
def aesRounds : List Byte → Bytes 16 → Bytes 16 → Bytes 16
  | [], _, s => s
  | [rc], k, s => xorBytes (aesShiftRows (aesSubBytes s)) (aesNextKey k rc)
  | rc :: rcs, k, s =>
    aesRounds rcs (aesNextKey k rc) (xorBytes (aesMixColumns (aesShiftRows (aesSubBytes s))) (aesNextKey k rc))

/-- The ten round constants. -/
def aesRcon : List Byte := [0x01, 0x02, 0x04, 0x08, 0x10, 0x20, 0x40, 0x80, 0x1B, 0x36]

/-- AES-128 encryption of one block (FIPS-197). -/
def aesEncrypt (key block : Bytes 16) : Bytes 16 := aesRounds aesRcon key (xorBytes block key)

/-- The function AES128_ENC of the parameter (R5). -/
def cipherFn : Cipher → Bytes 16 → Bytes 16 → Bytes 16
  | .fips197 => aesEncrypt
  | .other id => Config.otherCipher id

/-- `AES(key, block)` (R12): one invocation of the block cipher `enc`. It consults one draw of AES_FAULT, and
answers none where the draw says failure. -/
def aes (enc : Bytes 16 → Bytes 16 → Bytes 16) (key block : Bytes 16) (d : Draws Bool) :
    Option (Bytes 16) × Draws Bool :=
  (if d.draw Config.aesFault 0 then none else some (enc key block), d.advance)

end Sys2Proof.Machine
end

