-- ==== Sys2Proof/Machine/KeyWrap.lean ====
section
/-! DEFINITION. The AES key wrap, the word swap, and the commands KWRAP and BLOB_SWAP (43_keywrap.md). -/

namespace Sys2Proof.Machine

/-! ### The wrap -/

/-- The wrap's working state: the integrity register A and R[1..5]; `r[i - 1]` is R[i] (R78). -/
structure WrapRegs where
  a : Bytes 8
  r : Vector (Bytes 8) 5
deriving DecidableEq, Repr

/-- A <- iv, and R[i] <- chunk i of the plaintext (R78). -/
def wrapInit (plaintext : Bytes 40) (iv : Bytes 8) : WrapRegs :=
  ⟨iv, Vector.ofFn fun i => slice plaintext (8 * i.val) 8⟩

/-- The round counter t = 5j + i, with the inner index counted from 0 (R79). -/
def roundCounter (j : Nat) (i : Fin 5) : Nat := 5 * j + (i.val + 1)

/-- The registers after a round whose cipher output is B (R79): A is MSB64(B) with the counter XORed into
byte 7, R[i] is LSB64(B). -/
def wrapUpdate (j : Nat) (i : Fin 5) (b : Bytes 16) (w : WrapRegs) : WrapRegs :=
  ⟨(msb64 b).set 7 ((msb64 b)[7] ^^^ BitVec.ofNat 8 (roundCounter j i)), w.r.set i (lsb64 b)⟩

/-- Rounds in the given order; none where a cipher invocation reports failure, after which no later one is
made (R79, R82, R121). -/
def wrapRounds (enc : Bytes 16 → Bytes 16 → Bytes 16) (kek : Bytes 16) :
    List (Nat × Fin 5) → WrapRegs → Draws Bool → Option WrapRegs × Draws Bool
  | [], w, d => (some w, d)
  | (j, i) :: rest, w, d =>
    match aes enc kek (w.a ++ w.r[i]) d with
    | (none, d') => (none, d')
    | (some b, d') => wrapRounds enc kek rest (wrapUpdate j i b w) d'

/-- The order of the rounds: j from 0 to 5 outside, i from 1 to 5 inside (R80). -/
def roundOrder : List (Nat × Fin 5) :=
  [0, 1, 2, 3, 4, 5].flatMap fun j => [(j, 0), (j, 1), (j, 2), (j, 3), (j, 4)]

/-- A ++ R[1] ++ ... ++ R[5] (R81). -/
def wrapOutput (w : WrapRegs) : Bytes 48 := w.a ++ w.r[0] ++ w.r[1] ++ w.r[2] ++ w.r[3] ++ w.r[4]

/-- `wrap(plaintext, iv, kek)` (R81), with the draws of its cipher invocations. -/
def wrap (enc : Bytes 16 → Bytes 16 → Bytes 16) (plaintext : Bytes 40) (iv : Bytes 8) (kek : Bytes 16)
    (d : Draws Bool) : Option (Bytes 48) × Draws Bool :=
  let p := wrapRounds enc kek roundOrder (wrapInit plaintext iv) d
  (p.1.map wrapOutput, p.2)

/-- KWRAP (R82). -/
def execKwrap (s : State) : Host.Outcome State Fault Refusal :=
  let p := wrap (cipherFn s.cfg.cipher) s.blobPt s.iv s.skek s.aesDraws
  let s' := { s with aesDraws := p.2 }
  .next <|
    match p.1 with
    | none => raise .blockCipherFailure s'
    | some c => succeed { s' with blobCt := c }

/-! ### The unwrap, which is no command (R4, R88) -/

/-- One round of the unwrap: the counter is XORed into byte 7 of A, then the block is decrypted (R88). -/
def unwrapRound (dec : Bytes 16 → Bytes 16 → Bytes 16) (kek : Bytes 16) (w : WrapRegs) (p : Nat × Fin 5) :
    WrapRegs :=
  let b := dec kek (w.a.set 7 (w.a[7] ^^^ BitVec.ofNat 8 (roundCounter p.1 p.2)) ++ w.r[p.2])
  ⟨msb64 b, w.r.set p.2 (lsb64 b)⟩

/-- `unwrap(c, k)` with the block decryption `dec`: the integrity value and the plaintext (R88). -/
def unwrap (dec : Bytes 16 → Bytes 16 → Bytes 16) (c : Bytes 48) (kek : Bytes 16) : Bytes 8 × Bytes 40 :=
  let w := roundOrder.reverse.foldl (unwrapRound dec kek)
    ⟨slice c 0 8, Vector.ofFn fun i => slice c (8 * (i.val + 1)) 8⟩
  (w.a, w.r[0] ++ w.r[1] ++ w.r[2] ++ w.r[3] ++ w.r[4])

/-! ### The word swap -/

/-- Sub-word m of a block with its bytes reversed (R84). -/
def reversedSubWord (b : Bytes 16) (m : Fin 4) : Bytes 4 :=
  #v[b[4 * m.val + 3], b[4 * m.val + 2], b[4 * m.val + 1], b[4 * m.val]]

/-- `WSWAP(b)`: each sub-word's bytes reversed, then the sub-words of each pair exchanged (R84). -/
def wswap (b : Bytes 16) : Bytes 16 :=
  reversedSubWord b 1 ++ reversedSubWord b 0 ++ reversedSubWord b 3 ++ reversedSubWord b 2

/-- WSWAP of each of the three 16-byte words of a wrapped blob (R86). -/
def swapBlob (c : Bytes 48) : Bytes 48 :=
  wswap (slice c 0 16) ++ wswap (slice c 16 16) ++ wswap (slice c 32 16)

/-- BLOB_SWAP (R86). -/
def execBlobSwap (s : State) : Host.Outcome State Fault Refusal :=
  .next <| succeed { s with blobCt := swapBlob s.blobCt }

end Sys2Proof.Machine
end

