-- ==== Sys2Proof/Machine/Ctr.lean ====
section
/-! DEFINITION. The counter and the commands EXT_CTR and CTR_CRYPT (45_otfad_ctr.md). -/

namespace Sys2Proof.Machine

/-- The XOR digest of a counter (R101). -/
def ctrDigest (ctr8 : Bytes 8) : Bytes 4 := xorBytes (slice ctr8 0 4) (slice ctr8 4 4)

/-- `extend(ctr8, base)` (R101). -/
def extendCtr (ctr8 : Bytes 8) (base : Word) : Bytes 16 := ctr8 ++ ctrDigest ctr8 ++ be32 base

/-- `effective(ctr16, addr)`: bytes 12..15 overwritten by the address, big-endian (R102). -/
def effective (ctr16 : Bytes 16) (addr : Word) : Bytes 16 := slice ctr16 0 12 ++ be32 addr

/-- The address of block k, modulo 2^32 (R103). -/
def blockAddr (base : Word) (k : Nat) : Word := base + BitVec.ofNat 32 (16 * k)

/-- EXT_CTR (R105). -/
def execExtCtr (s : State) : Host.Outcome State Fault Refusal :=
  .next <| succeed { s with ctr16 := extendCtr s.ctr8 s.baseAddr }

/-- The outcome of a run over blocks: the output blocks, or none where a cipher invocation reported failure;
the counter as it then stands; the draws left. -/
structure CtrRun where
  out : Option (List (Bytes 16))
  ctr : Bytes 16
  draws : Draws Bool
deriving DecidableEq, Repr

/-- The block loop of `otfad_ctr`, from block k on (R106): the address is written into the counter before the
cipher is invoked, and a failure ends the loop (R111). -/
def ctrBlocks (enc : Bytes 16 → Bytes 16 → Bytes 16) (key : Bytes 16) (base : Word) :
    Nat → List (Bytes 16) → Bytes 16 → Draws Bool → CtrRun
  | _, [], c, d => ⟨some [], c, d⟩
  | k, p :: ps, c, d =>
    let c' := effective c (blockAddr base k)
    match aes enc key c' d with
    | (none, d') => ⟨none, c', d'⟩
    | (some b, d') =>
      let rest := ctrBlocks enc key base (k + 1) ps c' d'
      { rest with out := rest.out.map (xorBytes p (wswap b) :: ·) }

/-- The first n blocks of a byte sequence read from DATA_IN (R106). -/
def State.inBlocks (s : State) (n : Nat) : List (Bytes 16) :=
  (List.range n).map fun k => Vector.ofFn fun i => s.bufByte (dataInBase + (16 * k + i.val))

/-- `otfad_ctr(pt, key, ctr16, base)` (R106). -/
def otfadCtr (enc : Bytes 16 → Bytes 16 → Bytes 16) (pt : List (Bytes 16)) (key ctr16 : Bytes 16) (base : Word)
    (d : Draws Bool) : CtrRun :=
  ctrBlocks enc key base 0 pt ctr16 d

/-- The length check of CTR_CRYPT (R108). -/
def ctrLengthOk (cfg : Config) (len : Word) : Bool :=
  decide (len.toNat ≤ cfg.dataCap) && decide (len.toNat % 16 = 0)

/-- CTR_CRYPT (R107): the counter is written back also after a failure (R111), the output only on success. -/
def execCtrCrypt (s : State) : Host.Outcome State Fault Refusal :=
  .next <|
    if ctrLengthOk s.cfg s.len then
      let run := otfadCtr (cipherFn s.cfg.cipher) (s.inBlocks (s.len.toNat / 16)) s.imgKey s.ctr16 s.baseAddr
        s.aesDraws
      let s' := { s with ctr16 := run.ctr, aesDraws := run.draws }
      match run.out with
      | none => raise .blockCipherFailure s'
      | some blocks => succeed (s'.memWrite dataOutBase 0 (blocks.flatMap Vector.toList))
    else raise .inputSizeMismatch s

end Sys2Proof.Machine
end

