-- ==== Sys2Proof/Machine/KeyBlob.lean ====
section
/-! DEFINITION. The key-blob plaintext and the BUILD_BLOB command (44_keyblob.md). -/

namespace Sys2Proof.Machine

/-- The range check (R95): unsigned, on END_ADDR without END_FLAGS. -/
def rangeOk (startAddr endAddr flashBase : Word) : Bool :=
  decide (startAddr < endAddr) && decide (flashBase ≤ startAddr) && decide (flashBase ≤ endAddr)

/-- Blob bytes 0..35 (R92). -/
def blobHead (imgKey : Bytes 16) (ctr8 : Bytes 8) (startAddr endWord : Word) : Bytes 36 :=
  imgKey ++ ctr8 ++ le32 startAddr ++ le32 endWord ++ le32 0

/-- The stored form of the CRC value (parameter CRC_STORE_ORDER, R94). -/
def storedCrc (o : ByteOrder) (c : Word) : Bytes 4 :=
  match o with
  | .little => le32 c
  | .big => be32 c

/-- The CRC of a blob: of its bytes 0..31 exactly (R72, R93). -/
def blobCrc (t : CrcTable) (head : Bytes 36) : Word := crc32 t (slice head 0 32).toList

/-- BUILD_BLOB (R96). -/
def execBuildBlob (s : State) : Host.Outcome State Fault Refusal :=
  .next <|
    if rangeOk s.startAddr s.endAddr s.cfg.flashBase then
      let b := blobHead s.imgKey s.ctr8 s.startAddr (s.endAddr ||| s.endFlags)
      let c := blobCrc s.cfg.crcTable b
      succeed { s with blobPt := b ++ storedCrc s.cfg.crcStoreOrder c, crcResult := c }
    else raise .addressRangeInvalid s

end Sys2Proof.Machine
end

