-- ==== Sys2Proof/Machine/Scramble.lean ====
section
/-! DEFINITION. The key scrambler and the SCRAMBLE command (42_scrambler.md). -/

namespace Sys2Proof.Machine

/-- The slot that a context selects (R73). -/
def slot (align : Byte) (ctxSel : BitVec 2) : Nat := (align >>> (2 * ctxSel.toNat) &&& 0b11).toNat

/-- The scramble function: scramble byte k goes into byte 4 * slot + k (R74). -/
def scramble (kek : Bytes 16) (scr : Bytes 4) (align : Byte) (ctxSel : BitVec 2) : Bytes 16 :=
  Vector.ofFn fun i =>
    if i.val / 4 = slot align ctxSel then kek[i] ^^^ scr[i.val % 4]'(Nat.mod_lt _ (by decide)) else kek[i]

/-- SCRAMBLE (R75). -/
def execScramble (s : State) : Host.Outcome State Fault Refusal :=
  .next <| succeed { s with skek := scramble s.kek s.scr s.align s.ctxSel }

end Sys2Proof.Machine
end

