-- ==== Sys2Proof/Machine/Dispatch.lean ====
section
/-! DEFINITION. The meaning of each command (R64), one arm per constructor. -/

namespace Sys2Proof.Machine

def exec (i : Instr) (s : State) : Host.Outcome State Fault Refusal :=
  match i with
  | .crc32 => Sys2Proof.Machine.execCrc32 s
  | .scramble => Sys2Proof.Machine.execScramble s
  | .buildBlob => Sys2Proof.Machine.execBuildBlob s
  | .kwrap => Sys2Proof.Machine.execKwrap s
  | .blobSwap => Sys2Proof.Machine.execBlobSwap s
  | .extCtr => Sys2Proof.Machine.execExtCtr s
  | .ctrCrypt => Sys2Proof.Machine.execCtrCrypt s

end Sys2Proof.Machine
end

