-- ==== Sys2Proof/Machine/Engine.lean ====
section
/-! DEFINITION. The engine step: the pending command, performed whole (R15, R61). -/

namespace Sys2Proof.Machine

/-- Perform a command word. An illegal word raises IllegalCommand before anything else is looked at, and writes
nothing but STATUS (R63, R65, R121, R122). -/
def engineStep (w : Word) (s : State) : Host.Outcome State Fault Refusal :=
  match decode w with
  | .error _ => .next (raise .illegalCommand s)
  | .ok i => exec i s

end Sys2Proof.Machine
end

