-- ==== Sys2Proof/Machine/Flags.lean ====
section
/-! DEFINITION. STATUS, the only flags of the core (R20, R41). -/

namespace Sys2Proof.Machine

/-- The error codes of STATUS.ERR (R116). -/
def CmdError.code : CmdError → BitVec 4
  | .inputSizeMismatch => 1
  | .blockCipherFailure => 2
  | .addressRangeInvalid => 3
  | .illegalCommand => 4

/-- The value of STATUS.ERR; 0 on success (R116). -/
def errCode : Option CmdError → BitVec 4
  | none => 0
  | some e => e.code

/-- STATUS as a host read sees it: reserved [31:12], ERR [11:8], reserved [7:3], OVR, DONE, BUSY (R20). -/
def State.statusWord (s : State) : Word :=
  0#20 ++ errCode s.err ++ 0#5 ++ BitVec.ofBool s.ovr ++ BitVec.ofBool s.done ++ BitVec.ofBool s.busy

/-- A host write to STATUS: DONE and OVR are cleared where the written bit is 1, and nothing else changes
(R20). It is also how the host acknowledges a completion (R126). -/
def clearStatus (w : Word) (s : State) : State :=
  { s with done := s.done && !w.getLsbD 1, ovr := s.ovr && !w.getLsbD 2 }

/-- A host write, other than to STATUS, that is lost because a command is pending (R59). -/
def loseWrite (s : State) : State := { s with ovr := true }

end Sys2Proof.Machine
end

