-- ==== Sys2Proof/Machine/Operands.lean ====
section
/-! DEFINITION. The register window: its layout (R18, R47), the words of each register (R50), and a host
read and write of it (R48, R52, R58, R59). -/

namespace Sys2Proof.Machine

/-! ### Layout -/

/-- All registers and buffers, in the order of R18. -/
def Reg.all : List Reg :=
  [.cmd, .status, .len, .ctxSel, .align, .scr, .startAddr, .endAddr, .endFlags, .baseAddr, .flashBase,
    .crcResult] ++ [.kek, .skek, .imgKey, .ctr8, .iv, .ctr16, .blobPt, .blobCt, .dataIn, .dataOut]

/-- Window offset of a register (R18). -/
def Reg.base : Reg → Nat
  | .cmd => 0x000
  | .status => 0x004
  | .len => 0x008
  | .ctxSel => 0x00C
  | .align => 0x010
  | .scr => 0x014
  | .startAddr => 0x018
  | .endAddr => 0x01C
  | .endFlags => 0x020
  | .baseAddr => 0x024
  | .flashBase => 0x028
  | .crcResult => 0x02C
  | .kek => 0x040
  | .skek => 0x050
  | .imgKey => 0x060
  | .ctr8 => 0x070
  | .iv => 0x078
  | .ctr16 => 0x080
  | .blobPt => 0x0A0
  | .blobCt => 0x0D0
  | .dataIn => dataInBase
  | .dataOut => dataOutBase

/-- Size of a register in bytes (R18). -/
def Reg.size (cfg : Config) : Reg → Nat
  | .cmd => 4
  | .status => 4
  | .len => 4
  | .ctxSel => 4
  | .align => 4
  | .scr => 4
  | .startAddr => 4
  | .endAddr => 4
  | .endFlags => 4
  | .baseAddr => 4
  | .flashBase => 4
  | .crcResult => 4
  | .kek => 16
  | .skek => 16
  | .imgKey => 16
  | .ctr8 => 8
  | .iv => 8
  | .ctr16 => 16
  | .blobPt => 40
  | .blobCt => 64
  | .dataIn => cfg.dataCap
  | .dataOut => cfg.dataCap

/-- Whether a window offset lies in a register (R18). -/
def Reg.covers (cfg : Config) (off : Nat) (r : Reg) : Bool :=
  decide (r.base ≤ off) && decide (off < r.base + r.size cfg)

/-- The register and the word of it at a window offset; none for an offset that is reserved or not a multiple
of 4 (R18, R42, R48). -/
def regAt (cfg : Config) (off : Nat) : Option (Reg × Nat) :=
  if off % 4 ≠ 0 then none
  else (Reg.all.find? (Reg.covers cfg off)).map fun r => (r, (off - r.base) / 4)

/-- Size of the window in bytes (R46). -/
def windowSize : Nat := 0x300000

/-- The window offset of a system address, none outside the window (R46). -/
def windowOffset (cfg : Config) (addr : Nat) : Option Nat :=
  if cfg.blockBase ≤ addr ∧ addr < cfg.blockBase + windowSize then some (addr - cfg.blockBase) else none

/-! ### Reading a register -/

/-- The 64 bytes of BLOB_CT: 48 stored bytes, then 16 bytes that always read 0 (R38, R87). -/
def State.blobFile (s : State) : Bytes 64 := s.blobCt ++ zeroBytes 16

/-- The four data-buffer bytes from a window offset on, as a word (R49, R50). -/
def State.bufWord (s : State) (off : Nat) : Word :=
  fromLE32 #v[s.bufByte off, s.bufByte (off + 1), s.bufByte (off + 2), s.bufByte (off + 3)]

/-- The value of word k of a register (R19 to R40, R50). -/
def State.regWord (s : State) (r : Reg) (k : Nat) : Word :=
  match r with
  | .cmd => 0
  | .status => s.statusWord
  | .len => s.len
  | .ctxSel => s.ctxSel.setWidth 32
  | .align => s.align.setWidth 32
  | .scr => wordAt s.scr k
  | .startAddr => s.startAddr
  | .endAddr => s.endAddr
  | .endFlags => s.endFlags
  | .baseAddr => s.baseAddr
  | .flashBase => s.cfg.flashBase
  | .crcResult => s.crcResult
  | .kek => wordAt s.kek k
  | .skek => wordAt s.skek k
  | .imgKey => wordAt s.imgKey k
  | .ctr8 => wordAt s.ctr8 k
  | .iv => wordAt s.iv k
  | .ctr16 => wordAt s.ctr16 k
  | .blobPt => wordAt s.blobPt k
  | .blobCt => wordAt s.blobFile k
  | .dataIn => s.bufWord (dataInBase + 4 * k)
  | .dataOut => s.bufWord (dataOutBase + 4 * k)

/-- Whether a register or buffer is an output of a command (the column 'writes' of R64). -/
def commandOutput (i : Instr) (r : Reg) : Bool :=
  match i with
  | .crc32 => r == .crcResult
  | .scramble => r == .skek
  | .buildBlob => r == .blobPt || r == .crcResult
  | .kwrap => r == .blobCt
  | .blobSwap => r == .blobCt
  | .extCtr => r == .ctr16
  | .ctrCrypt => r == .dataOut || r == .ctr16

/-- The words of BLOB_CT bytes 48..63, which always read 0 (R38, R87). -/
def hardWired (r : Reg) (k : Nat) : Bool := r == .blobCt && decide (12 ≤ k)

/-- Whether a register is an output of the pending command (R58). An illegal word has none (R65). -/
def State.pendingOutput (s : State) (r : Reg) : Bool :=
  match s.pending with
  | none => false
  | some w =>
    match decode w with
    | .error _ => false
    | .ok i => commandOutput i r

/-- A host read of word k of a register (R52, R58): no side effect, but that a read of an output of the pending
command uses up one draw. An output is drawn whole, as 93_implementation_defined.md U2 has it (log 4). -/
def readReg (r : Reg) (k : Nat) (s : State) : Word × State :=
  if s.pendingOutput r && !hardWired r k then
    (s.busyReads.draw Config.busyRead 0, { s with busyReads := s.busyReads.advance })
  else (s.regWord r k, s)

/-- A 32-bit host read at a window offset; none is a bus error (R48). -/
def readWindow (off : Nat) (s : State) : Option (Word × State) :=
  (regAt s.cfg off).map fun p => readReg p.1 p.2 s

/-! ### Writing a register -/

/-- The effect of a host write of word k of a register while no command is pending (R19 to R40, R50, R52).
Reserved bits and read-only registers ignore it. -/
def writeReg (r : Reg) (k : Nat) (w : Word) (s : State) : State :=
  match r with
  | .cmd => accept w s
  | .status => clearStatus w s
  | .len => { s with len := w }
  | .ctxSel => { s with ctxSel := w.setWidth 2 }
  | .align => { s with align := w.setWidth 8 }
  | .scr => { s with scr := setWordAt s.scr k w }
  | .startAddr => { s with startAddr := w }
  | .endAddr => { s with endAddr := w }
  | .endFlags => { s with endFlags := w }
  | .baseAddr => { s with baseAddr := w }
  | .flashBase => s
  | .crcResult => s
  | .kek => { s with kek := setWordAt s.kek k w }
  | .skek => { s with skek := setWordAt s.skek k w }
  | .imgKey => { s with imgKey := setWordAt s.imgKey k w }
  | .ctr8 => { s with ctr8 := setWordAt s.ctr8 k w }
  | .iv => { s with iv := setWordAt s.iv k w }
  | .ctr16 => { s with ctr16 := setWordAt s.ctr16 k w }
  | .blobPt => { s with blobPt := setWordAt s.blobPt k w }
  | .blobCt => s
  | .dataIn => s.memWrite dataInBase (4 * k) (le32 w).toList
  | .dataOut => s

/-- A 32-bit host write at a window offset; none is a bus error (R48). A write to STATUS is accepted at any
time (R20); any other write while a command is pending is lost and sets OVR (R59). -/
def writeWindow (off : Nat) (w : Word) (s : State) : Option State :=
  (regAt s.cfg off).map fun p =>
    if p.1 = .status then clearStatus w s
    else if s.busy then loseWrite s
    else writeReg p.1 p.2 w s

/-! ### The bus -/

/-- A 32-bit read at a system address (R46, R48). -/
def busRead (addr : Nat) (s : State) : Option (Word × State) :=
  (windowOffset s.cfg addr).bind fun off => readWindow off s

/-- A 32-bit write at a system address (R46, R48). -/
def busWrite (addr : Nat) (w : Word) (s : State) : Option State :=
  (windowOffset s.cfg addr).bind fun off => writeWindow off w s

end Sys2Proof.Machine
end

