-- ==== Sys2Proof/Machine/HostAgent.lean ====
section
/-! DEFINITION. The host agent: its operations (R67), one a step, and the pseudo-operations. -/

namespace Sys2Proof.Machine

/-- The host goes on to its next operation. -/
def hostNext (s : State) : State := { s with hostPc := s.hostPc + 1 }

/-- The place of a label: the index where it stands, if it stands exactly once (R67). -/
def labelIndex (p : List HostOp) (l : Nat) : Option Nat :=
  if p.count (.label l) = 1 then p.findIdx? (· == .label l) else none

/-- One host operation (R67). An access goes to the system address BLOCK_BASE + offset. A bus error ends the run
(R48, R125); an operation outside the forms is refused (R125). A BNZ at an offset that R67's `<reg>` does not name is
performed as a read there, and is not taken as outside the forms. DESIGN CHOICE (log 28). -/
def hostOp (op : HostOp) (s : State) : Host.Outcome State Fault Refusal :=
  match op with
  | .wr off v =>
    match busWrite (s.cfg.blockBase + off) v s with
    | none => .fault .hostBusError
    | some s' => .next (hostNext s')
  | .rd off =>
    match busRead (s.cfg.blockBase + off) s with
    | none => .fault .hostBusError
    | some (v, s') => .next (hostNext { s' with trace := s'.trace ++ [v] })
  | .label _ => .next (hostNext s)
  | .bnz off mask l =>
    match busRead (s.cfg.blockBase + off) s with
    | none => .fault .hostBusError
    | some (v, s') =>
      if v &&& mask = 0 then .next (hostNext s')
      else
        match labelIndex s.program l with
        | none => .refused .undefinedLabel
        | some t => .next { s' with hostPc := t }
  | .otherWidth _ _ _ => .fault .hostBusError
  | .foreign => .refused .foreignHostOp

/-- A host step: the next operation, or nothing when the program has ended (R142). -/
def hostStep (s : State) : Host.Outcome State Fault Refusal :=
  match s.program[s.hostPc]? with
  | none => .next s
  | some op => hostOp op s

/-! ### Pseudo-operations (R67) -/

/-- `CMD mnemonic`: WR CMD, encoding. -/
def opCmd (i : Instr) : List HostOp := [.wr Reg.cmd.base (encode i)]

/-- `WAIT` with the fresh label l: poll until BUSY = 0. -/
def opWait (l : Nat) : List HostOp := [.label l, .bnz Reg.status.base 0x1 l]

/-- `RUN mnemonic`: CMD, then WAIT. -/
def opRun (i : Instr) (l : Nat) : List HostOp := opCmd i ++ opWait l

/-- The writes of `WRB` from an offset on, one per 4-byte group. R67 requires a multiple of 4; that a rest of fewer
than 4 bytes becomes an operation outside the forms is the model's choice (log 25). -/
def opWrbAt : Nat → List Byte → List HostOp
  | off, b0 :: b1 :: b2 :: b3 :: rest => .wr off (fromLE32 #v[b0, b1, b2, b3]) :: opWrbAt (off + 4) rest
  | _, [] => []
  | _, _ => [.foreign]

/-- `WRB reg, bytes`. -/
def opWrb (r : Reg) (bytes : List Byte) : List HostOp := opWrbAt r.base bytes

/-- `RDB reg, n`. DESIGN CHOICE (log 25): R67 says nothing of an n that is no multiple of 4; n / 4 is rounded down, so
that the bytes of the last, partial word are not read. -/
def opRdb (r : Reg) (n : Nat) : List HostOp := (List.range (n / 4)).map fun k => .rd (r.base + 4 * k)

/-- `CLR`: clear DONE and OVR. -/
def opClr : List HostOp := [.wr Reg.status.base 0x6]

end Sys2Proof.Machine
end

