-- ==== Sys2Proof/Machine/Step.lean ====
section
/-! DEFINITION. One step of the machine: a reset, the engine step, or a host step (R14, R15, R133). -/

namespace Sys2Proof.Machine

/-- One step. A requested reset comes first, and discards a pending command (R133). A pending command whose
delay has run out is performed; else the host moves, and the delay runs down (R15, R139; log 5). -/
def step (s : State) : Host.Outcome State Fault Refusal :=
  if s.resetPin then .next (coreReset s)
  else
    match s.pending with
    | none => hostStep s
    | some w =>
      match s.delay with
      | 0 => engineStep w s
      | d + 1 => hostStep { s with delay := d }

/-- The state with a command word where the next step takes it from: the word is accepted as R61 says (PENDING,
and with it BUSY, DONE, ERR), its delay has run out, and no reset comes first (log 6). -/
def State.withFetchWord (s : State) (nbits w : Nat) : State :=
  { s with
    pending := some (BitVec.ofNat 32 (w % 2 ^ nbits))
    done := false
    err := none
    delay := 0
    resetPin := false }

end Sys2Proof.Machine
end

