-- ==== Sys2Proof/Safety.lean ====
section
/-! DEFINITION. What counts as a safe run and a well-kept state, in the terms claims use: the machine's
invariant, what a step of a run is, the premises R138 asks a claim to name, the host duties of R134 and R135, and
the end of a run (R142). -/

namespace Sys2Proof.Safety

open Sys2Proof.Machine

/-! ### The invariant of the machine -/

/-- A window offset that lies in one of the two data buffers (R47, R49). -/
def InBuffers (cfg : Config) (a : Nat) : Prop :=
  (dataInBase ≤ a ∧ a < dataInBase + cfg.dataCap) ∨ (dataOutBase ≤ a ∧ a < dataOutBase + cfg.dataCap)

/-- What every step keeps: memory stays canonical and inside the buffers, a pending command has DONE and ERR
cleared (R20, R61), and the parameters stay legal (R5). -/
structure Inv (s : State) : Prop where
  /-- Memory is in its canonical form. -/
  memWf : s.mem.wf
  /-- Only data-buffer bytes are stored. -/
  memInBuffers : ∀ c ∈ s.mem, InBuffers s.cfg c.1
  /-- While BUSY = 1, DONE = 0 (R20). -/
  busyNotDone : s.busy = true → s.done = false
  /-- While BUSY = 1, ERR = 0 (R20). -/
  busyNoError : s.busy = true → s.err = none
  /-- DATA_CAP is admitted by R5. -/
  cfgLegal : s.cfg.Legal

/-! ### What the next step is -/

/-- The command that the next step performs, none where it performs none (R15, R133). -/
def performing (s : State) : Option Instr :=
  match s.resetPin, s.pending, s.delay with
  | false, some w, 0 => (decode w).toOption
  | _, _, _ => none

/-- The host operation that the next step carries out, none where it is a reset, an engine step, or the program
has ended (R15, R142). -/
def hostActs (s : State) : Option HostOp :=
  match s.resetPin, s.pending, s.delay with
  | false, none, _ => s.program[s.hostPc]?
  | false, some _, _ + 1 => s.program[s.hostPc]?
  | _, _, _ => none

/-! ### Premises of a claim about a host program (R138) -/

/-- (a) None of the next n AES invocations reports failure. -/
def NoAesFailure (s : State) (n : Nat) : Prop := ∀ k < n, s.aesDraws.draw Config.aesFault k = false

/-- A set of register words, as (register, word) pairs. -/
abbrev Words := List (Reg × Nat)

/-- The first n words of a register. -/
def wordsOf (r : Reg) (n : Nat) : Words := (List.range n).map fun k => (r, k)

/-- The words of the operand registers that a command reads (the column 'reads' of R64), DATA_IN apart. -/
def operandWords : Instr → Words
  | .crc32 => wordsOf .len 1
  | .scramble => wordsOf .kek 4 ++ wordsOf .scr 1 ++ wordsOf .align 1 ++ wordsOf .ctxSel 1
  | .buildBlob => wordsOf .imgKey 4 ++ wordsOf .ctr8 2 ++ wordsOf .startAddr 1 ++ wordsOf .endAddr 1 ++
      wordsOf .endFlags 1 ++ wordsOf .flashBase 1
  | .kwrap => wordsOf .blobPt 10 ++ wordsOf .iv 2 ++ wordsOf .skek 4
  | .blobSwap => wordsOf .blobCt 12
  | .extCtr => wordsOf .ctr8 2 ++ wordsOf .baseAddr 1
  | .ctrCrypt => wordsOf .len 1 ++ wordsOf .imgKey 4 ++ wordsOf .ctr16 4 ++ wordsOf .baseAddr 1

/-- The words of DATA_IN that a command reads (R64); none where its length check fails (R71, R108). -/
def inputWords (i : Instr) (s : State) : Words :=
  match i with
  | .crc32 => if s.len.toNat ≤ s.cfg.dataCap then wordsOf .dataIn ((s.len.toNat + 3) / 4) else []
  | .ctrCrypt => if ctrLengthOk s.cfg s.len then wordsOf .dataIn (s.len.toNat / 4) else []
  | .scramble => []
  | .buildBlob => []
  | .kwrap => []
  | .blobSwap => []
  | .extCtr => []

/-- The words of registers that a command writes (the column 'writes' of R64), DATA_OUT apart, which no command
reads. -/
def outputWords : Instr → Words
  | .crc32 => wordsOf .crcResult 1
  | .scramble => wordsOf .skek 4
  | .buildBlob => wordsOf .blobPt 10 ++ wordsOf .crcResult 1
  | .kwrap => wordsOf .blobCt 12
  | .blobSwap => wordsOf .blobCt 12
  | .extCtr => wordsOf .ctr16 4
  | .ctrCrypt => [(.ctr16, 3)]

/-- The words that the command i wrote in the step from s to t: none after an error (R120), but for CTR16's address
field after a cipher failure of CTR_CRYPT (R111); none for CTR_CRYPT without a block (R110). -/
def resultWords (i : Instr) (s t : State) : Words :=
  if (t.err = none ∧ ¬ (i = .ctrCrypt ∧ s.len = 0)) ∨ (t.err = some .blockCipherFailure ∧ i = .ctrCrypt)
  then outputWords i else []

/-- Whether a host write is stored in the register (column 'host access' RW of R18); CMD stores none (R19) and a
write to STATUS clears bits (R20). -/
def storesHostWrite : Reg → Bool
  | .cmd | .status | .flashBase | .crcResult | .blobCt | .dataOut => false
  | .len | .ctxSel | .align | .scr | .startAddr | .endAddr | .endFlags | .baseAddr => true
  | .kek | .skek | .imgKey | .ctr8 | .iv | .ctr16 | .blobPt | .dataIn => true

/-- The word that a host operation writes: none where it is no write, or the write is not stored or is lost
(R59). -/
def hostWrites (op : HostOp) (s : State) : Words :=
  match op with
  | .wr off _ => (regAt s.cfg off).toList.filter fun p => storesHostWrite p.1 && !s.busy
  | .rd _ => []
  | .label _ => []
  | .bnz _ _ _ => []
  | .otherWidth _ _ _ => []
  | .foreign => []

/-- The words the program has written, by its host's writes and its commands' results, after a step from s to t: W
are those before it. A reset takes them all away. -/
def writtenAfter (W : Words) (s t : State) : Words :=
  if s.resetPin then []
  else match performing s, hostActs s with
    | some i, _ => resultWords i s t ++ W
    | none, some op => hostWrites op s ++ W
    | none, none => W

/-- What holds before each of the next n steps of a run, of the words written so far and the state. A run that
stops has no further step. -/
def AlongRun (P : Words → State → Bool) : Nat → Words → State → Bool
  | 0, _, _ => true
  | n + 1, W, s => P W s &&
    match step s with
    | .next t => AlongRun P n (writtenAfter W s t) t
    | .fault _ => true
    | .refused _ => true

/-- A word has been written by the program, or has its reset value (R131). -/
def knownWord (W : Words) (s : State) (p : Reg × Nat) : Bool :=
  W.contains p || s.regWord p.1 p.2 == (coreReset s).regWord p.1 p.2

/-- (b) Every operand register that a command performed in the next n steps reads was written by the program or has
its reset value, word by word; a command's result counts as written by the program (log 26). -/
def OperandsKnown (n : Nat) (s : State) : Prop :=
  AlongRun (fun W s => (performing s).toList.all fun i => (operandWords i).all (knownWord W s)) n [] s = true

/-- Every register has its reset value at the start. A sufficient start for (b), not (b) itself: a program that
writes all its operands meets (b) on any idle core. (e) needs no premise: State holds one host (R14; log 18). -/
def FromReset (s : State) : Prop := s = { coreReset s with resets := s.resets }

/-- (c) Every DATA_IN word of which a command performed in the next n steps reads a byte was written by the
program. -/
def DataInWrittenByProgram (n : Nat) (s : State) : Prop :=
  AlongRun (fun W s => (performing s).toList.all fun i => (inputWords i s).all W.contains) n [] s = true

/-- What (c) leaves a command with: every DATA_IN byte below n has been written. -/
def DataInWritten (s : State) (n : Nat) : Prop := ∀ k < n, (s.mem.read (dataInBase + k)).isSome = true

/-- (d) STATUS.BUSY = 0. -/
def Idle (s : State) : Prop := s.busy = false

/-! ### Host duties before a command (R134) -/

/-- Item 2: SCR holds the bytes of the scramble file, each with its bits reversed (R77). -/
def ScrPrepared (s : State) (file : Bytes 4) : Prop := ∀ i : Fin 4, s.scr[i] = bitrev8 file[i]

/-- Item 3: START_ADDR bits [9:0] are zero, END_ADDR has none of the bits the host keeps in END_FLAGS, and
END_FLAGS holds the reserved pattern and no bit but the pattern's and the three flags'. -/
def RegionPrepared (s : State) : Prop :=
  s.startAddr &&& 0x3FF = 0 ∧
  s.endAddr &&& (s.cfg.flagRo ||| s.cfg.flagAde ||| s.cfg.flagVld ||| s.cfg.endRsvdPattern) = 0 ∧
  s.endFlags &&& s.cfg.endRsvdPattern = s.cfg.endRsvdPattern ∧
  s.endFlags &&& ~~~(s.cfg.flagRo ||| s.cfg.flagAde ||| s.cfg.flagVld ||| s.cfg.endRsvdPattern) = 0

/-- Item 4: IV is eight bytes 0xA6. -/
def StandardIv (s : State) : Prop := s.iv = Vector.replicate 8 0xA6

/-- Item 5: CTR16 is the extended counter and LEN is a multiple of 16 within the buffer. -/
def CounterPrepared (s : State) : Prop :=
  s.ctr16 = extendCtr s.ctr8 s.baseAddr ∧ ctrLengthOk s.cfg s.len = true

/-- The image of the region: BASE_ADDR is its start and LEN its length (R98). -/
def ImagePrepared (s : State) : Prop := s.baseAddr = s.startAddr ∧ s.len = s.endAddr - s.startAddr

/-! ### The host duty over a run (R135) -/

/-- What a step can be to the key blob in BLOB_CT. -/
inductive BlobEvent where
  /-- A KWRAP wrote BLOB_CT. -/
  | wrapped
  /-- A BLOB_SWAP was performed. -/
  | swapped
  /-- The host read a word of BLOB_CT. -/
  | read
  /-- A reset cleared BLOB_CT (R131). -/
  | cleared
deriving DecidableEq, Repr

/-- Whether a host operation reads a word of BLOB_CT. -/
def readsBlob (cfg : Config) (op : HostOp) : Bool :=
  match op with
  | .rd off => (regAt cfg off).any fun p => p.1 == .blobCt
  | .bnz off _ _ => (regAt cfg off).any fun p => p.1 == .blobCt
  | .wr _ _ => false
  | .label _ => false
  | .otherWidth _ _ _ => false
  | .foreign => false

/-- What the performing of a command is to the key blob, in a step to t. A KWRAP that failed wraps nothing
(R82). -/
def commandEvent (i : Instr) (t : State) : Option BlobEvent :=
  match i with
  | .kwrap => if t.err = none then some .wrapped else none
  | .blobSwap => some .swapped
  | .crc32 => none
  | .scramble => none
  | .buildBlob => none
  | .extCtr => none
  | .ctrCrypt => none

/-- What the step from s to t is to the key blob. Commands count as they are performed, so that a write to CMD that
is lost while busy counts for nothing, and one in a loop counts each time. -/
def blobEvent (s t : State) : Option BlobEvent :=
  if s.resetPin then some .cleared
  else match performing s, hostActs s with
    | some i, _ => commandEvent i t
    | none, some op => if readsBlob s.cfg op then some .read else none
    | none, none => none

/-- The blob events of the next n steps, in order. -/
def blobEvents : Nat → State → List BlobEvent
  | 0, _ => []
  | n + 1, s =>
    match step s with
    | .next t => (blobEvent s t).toList ++ blobEvents n t
    | .fault _ => []
    | .refused _ => []

/-- How BLOB_CT stands with its duty: no wrap yet, a raw wrap that awaits its swap, or a wrap swapped once. -/
inductive BlobStand where
  | noWrap
  | raw
  | swapped
deriving DecidableEq, Repr

/-- The stand after an event, none where the event breaks the duty: a raw wrap may be neither wrapped over nor read,
and a swapped wrap may not be swapped again. A swap with no wrap before it breaks nothing (log 27). -/
def BlobStand.next : BlobStand → BlobEvent → Option BlobStand
  | _, .cleared => some .noWrap
  | .raw, .wrapped => none
  | .raw, .swapped => some .swapped
  | .raw, .read => none
  | .swapped, .wrapped => some .raw
  | .swapped, .swapped => none
  | .swapped, .read => some .swapped
  | .noWrap, .wrapped => some .raw
  | .noWrap, .swapped => some .noWrap
  | .noWrap, .read => some .noWrap

/-- The stand after a list of events, none where one of them breaks the duty. -/
def BlobStand.after : BlobStand → List BlobEvent → Option BlobStand
  | q, [] => some q
  | q, e :: es => (q.next e).bind fun q' => q'.after es

/-- R135 over the next n steps: exactly one BLOB_SWAP after each KWRAP, before another KWRAP and before the host
reads BLOB_CT, and none outstanding at the end. -/
def SwappedOnce (n : Nat) (s : State) : Prop :=
  BlobStand.after .noWrap (blobEvents n s) = some .noWrap ∨
  BlobStand.after .noWrap (blobEvents n s) = some .swapped

/-! ### The end of a run (R137, R142) -/

/-- The host has performed its last operation and no command is pending (R142). -/
def RunEnded (s : State) : Prop := s.program.length ≤ s.hostPc ∧ s.pending = none

/-- The observation at the end of a run: what a host read of a window offset would return (R142). -/
def observed (s : State) (off : Nat) : Option Word := (regAt s.cfg off).map fun p => s.regWord p.1 p.2

/-- No host write was lost (R137). -/
def NoWriteLost (s : State) : Prop := s.ovr = false

end Sys2Proof.Safety
end

