-- ==== Sys2Proof/Certificates/Slice0/Obligations.lean ====
section
/-! DEFINITION. The statements for the provers. Each docstring names the rules of spec/ it formalises. -/

namespace Sys2Proof.Claims

open Sys2Proof.Machine

/-- The layout of the window, copied from the table of R18: register, offset, size in bytes. -/
def windowMap (cfg : Config) : List (Reg × Nat × Nat) :=
  [(.cmd, 0x000, 4), (.status, 0x004, 4), (.len, 0x008, 4), (.ctxSel, 0x00C, 4), (.align, 0x010, 4),
    (.scr, 0x014, 4), (.startAddr, 0x018, 4), (.endAddr, 0x01C, 4), (.endFlags, 0x020, 4),
    (.baseAddr, 0x024, 4), (.flashBase, 0x028, 4), (.crcResult, 0x02C, 4)] ++
  [(.kek, 0x040, 16), (.skek, 0x050, 16), (.imgKey, 0x060, 16), (.ctr8, 0x070, 8), (.iv, 0x078, 8),
    (.ctr16, 0x080, 16), (.blobPt, 0x0A0, 40), (.blobCt, 0x0D0, 64), (.dataIn, 0x100000, cfg.dataCap),
    (.dataOut, 0x200000, cfg.dataCap)]

/-- A window offset is reserved when no row of the table holds it (R18, R42). -/
def Reserved (cfg : Config) (off : Nat) : Prop :=
  ∀ row ∈ windowMap cfg, ¬ (row.2.1 ≤ off ∧ off < row.2.1 + row.2.2)

/-- The registers that store what the host writes (column 'host access' RW of R18). -/
def readWriteRegs : List Reg :=
  [.len, .ctxSel, .align, .scr, .startAddr, .endAddr, .endFlags, .baseAddr] ++
  [.kek, .skek, .imgKey, .ctr8, .iv, .ctr16, .blobPt, .dataIn]

/-- The registers that only the core writes (column 'host access' R of R18). -/
def readOnlyRegs : List Reg := [.flashBase, .crcResult, .blobCt, .dataOut]

/-- What a written word is stored as: reserved bits read 0 (R22, R23, R42). -/
def storedWord (r : Reg) (w : Word) : Word :=
  match r with
  | .ctxSel => w &&& 0x3
  | .align => w &&& 0xFF
  | _ => w

/-- Byte j of a byte-array register or buffer, none for a register that is not a byte array (R50). -/
def arrayByte (s : State) (r : Reg) (j : Nat) : Option Byte :=
  match r with
  | .scr => s.scr[j]?
  | .kek => s.kek[j]?
  | .skek => s.skek[j]?
  | .imgKey => s.imgKey[j]?
  | .ctr8 => s.ctr8[j]?
  | .iv => s.iv[j]?
  | .ctr16 => s.ctr16[j]?
  | .blobPt => s.blobPt[j]?
  | .blobCt => s.blobFile[j]?
  | .dataIn => if j < s.cfg.dataCap then some (s.bufByte (0x100000 + j)) else none
  | .dataOut => if j < s.cfg.dataCap then some (s.bufByte (0x200000 + j)) else none
  | _ => none

/-- The reset values of R131, for a state whose parameters and reset count are what they are. -/
structure AtResetValues (t : State) : Prop where
  pending : t.pending = none
  status : t.statusWord = 0
  cmd : t.regWord .cmd 0 = 0
  numeric : t.len = 0 ∧ t.ctxSel = 0 ∧ t.align = 0 ∧ t.startAddr = 0 ∧ t.endAddr = 0 ∧ t.endFlags = 0 ∧
    t.baseAddr = 0 ∧ t.crcResult = 0
  scr : ∀ i : Fin 4, t.scr[i] = 0
  flashBase : t.regWord .flashBase 0 = t.cfg.flashBase
  keys : ∀ i : Fin 16, t.kek[i] = 0 ∧ t.skek[i] = 0 ∧ t.imgKey[i] = 0 ∧ t.ctr16[i] = 0
  ctr8 : ∀ i : Fin 8, t.ctr8[i] = 0
  iv : ∀ i : Fin 8, t.iv[i] = 0xA6
  blobPt : ∀ i : Fin 40, t.blobPt[i] = 0
  blobCt : ∀ i : Fin 64, t.blobFile[i] = 0
  buffers : ∀ a : Nat, t.bufByte a = Config.unwrittenByte t.resets a

/-- The key wrap with a cipher that does not fail: the rounds of R80, each as R79 says, then R81. -/
def pureWrap (enc : Bytes 16 → Bytes 16 → Bytes 16) (plaintext : Bytes 40) (iv : Bytes 8) (kek : Bytes 16) :
    Bytes 48 :=
  wrapOutput (roundOrder.foldl (fun w p => wrapUpdate p.1 p.2 (enc kek (w.a ++ w.r[p.2])) w)
    (wrapInit plaintext iv))

/-- The keystream of block k (R104). -/
def keystream (enc : Bytes 16 → Bytes 16 → Bytes 16) (key ctr16 : Bytes 16) (base : Word) (k : Nat) : Bytes 16 :=
  wswap (enc key (effective ctr16 (base + BitVec.ofNat 32 (16 * k))))

/-- The outputs of a command, copied from the column 'writes' of R64 (STATUS excepted). -/
def outputRegs : Instr → List Reg
  | .crc32 => [.crcResult]
  | .scramble => [.skek]
  | .buildBlob => [.blobPt, .crcResult]
  | .kwrap => [.blobCt]
  | .blobSwap => [.blobCt]
  | .extCtr => [.ctr16]
  | .ctrCrypt => [.dataOut, .ctr16]

/-- The CRC table as R68 prints it: entry i is the i-th number. -/
def specCrcTable : List Nat :=
  [0x00000000, 0x04C11DB7, 0x09823B6E, 0x0D4326D9, 0x130476DC, 0x17C56B6B, 0x1A864DB2, 0x1E475005,
    0x2608EDB8, 0x22C9F00F, 0x2F8AD6D6, 0x2B4BCB61, 0x350C9B64, 0x31CD86D3, 0x3C8EA00A, 0x384FBDBD,
    0x4C11DB70, 0x48D0C6C7, 0x4593E01E, 0x4152FDA9, 0x5F15ADAC, 0x5BD4B01B, 0x569796C2, 0x52568B75,
    0x6A1936C8, 0x6ED82B7F, 0x639B0DA6, 0x675A1011, 0x791D4014, 0x7DDC5DA3, 0x709F7B7A, 0x745E66CD,
    0x9823B6E0, 0x9CE2AB57, 0x91A18D8E, 0x95609039, 0x8B27C03C, 0x8FE6DD8B, 0x82A5FB52, 0x8664E6E5,
    0xBE2B5B58, 0xBAEA46EF, 0xB7A96036, 0xB3687D81, 0xAD2F2D84, 0xA9EE3033, 0xA4AD16EA, 0xA06C0B5D,
    0xD4326D90, 0xD0F37027, 0xDDB056FE, 0xD9714B49, 0xC7361B4C, 0xC3F706FB, 0xCEB42022, 0xCA753D95,
    0xF23A8028, 0xF6FB9D9F, 0xFBB8BB46, 0xFF79A6F1, 0xE13EF6F4, 0xE5FFEB43, 0xE8BCCD9A, 0xEC7DD02D] ++
  [0x34867077, 0x30476DC0, 0x3D044B19, 0x39C556AE, 0x278206AB, 0x23431B1C, 0x2E003DC5, 0x2AC12072,
    0x128E9DCF, 0x164F8078, 0x1B0CA6A1, 0x1FCDBB16, 0x018AEB13, 0x054BF6A4, 0x0808D07D, 0x0CC9CDCA,
    0x7897AB07, 0x7C56B6B0, 0x71159069, 0x75D48DDE, 0x6B93DDDB, 0x6F52C06C, 0x6211E6B5, 0x66D0FB02,
    0x5E9F46BF, 0x5A5E5B08, 0x571D7DD1, 0x53DC6066, 0x4D9B3063, 0x495A2DD4, 0x44190B0D, 0x40D816BA,
    0xACA5C697, 0xA864DB20, 0xA527FDF9, 0xA1E6E04E, 0xBFA1B04B, 0xBB60ADFC, 0xB6238B25, 0xB2E29692,
    0x8AAD2B2F, 0x8E6C3698, 0x832F1041, 0x87EE0DF6, 0x99A95DF3, 0x9D684044, 0x902B669D, 0x94EA7B2A,
    0xE0B41DE7, 0xE4750050, 0xE9362689, 0xEDF73B3E, 0xF3B06B3B, 0xF771768C, 0xFA325055, 0xFEF34DE2,
    0xC6BCF05F, 0xC27DEDE8, 0xCF3ECB31, 0xCBFFD686, 0xD5B88683, 0xD1799B34, 0xDC3ABDED, 0xD8FBA05A] ++
  [0x690CE0EE, 0x6DCDFD59, 0x608EDB80, 0x644FC637, 0x7A089632, 0x7EC98B85, 0x738AAD5C, 0x774BB0EB,
    0x4F040D56, 0x4BC510E1, 0x46863638, 0x42472B8F, 0x5C007B8A, 0x58C1663D, 0x558240E4, 0x51435D53,
    0x251D3B9E, 0x21DC2629, 0x2C9F00F0, 0x285E1D47, 0x36194D42, 0x32D850F5, 0x3F9B762C, 0x3B5A6B9B,
    0x0315D626, 0x07D4CB91, 0x0A97ED48, 0x0E56F0FF, 0x1011A0FA, 0x14D0BD4D, 0x19939B94, 0x1D528623,
    0xF12F560E, 0xF5EE4BB9, 0xF8AD6D60, 0xFC6C70D7, 0xE22B20D2, 0xE6EA3D65, 0xEBA91BBC, 0xEF68060B,
    0xD727BBB6, 0xD3E6A601, 0xDEA580D8, 0xDA649D6F, 0xC423CD6A, 0xC0E2D0DD, 0xCDA1F604, 0xC960EBB3,
    0xBD3E8D7E, 0xB9FF90C9, 0xB4BCB610, 0xB07DABA7, 0xAE3AFBA2, 0xAAFBE615, 0xA7B8C0CC, 0xA379DD7B,
    0x9B3660C6, 0x9FF77D71, 0x92B45BA8, 0x9675461F, 0x8832161A, 0x8CF30BAD, 0x81B02D74, 0x857130C3] ++
  [0x5D8A9099, 0x594B8D2E, 0x5408ABF7, 0x50C9B640, 0x4E8EE645, 0x4A4FFBF2, 0x470CDD2B, 0x43CDC09C,
    0x7B827D21, 0x7F436096, 0x7200464F, 0x76C15BF8, 0x68860BFD, 0x6C47164A, 0x61043093, 0x65C52D24,
    0x119B4BE9, 0x155A565E, 0x18197087, 0x1CD86D30, 0x029F3D35, 0x065E2082, 0x0B1D065B, 0x0FDC1BEC,
    0x3793A651, 0x3352BBE6, 0x3E119D3F, 0x3AD08088, 0x2497D08D, 0x2056CD3A, 0x2D15EBE3, 0x29D4F654,
    0xC5A92679, 0xC1683BCE, 0xCC2B1D17, 0xC8EA00A0, 0xD6AD50A5, 0xD26C4D12, 0xDF2F6BCB, 0xDBEE767C,
    0xE3A1CBC1, 0xE760D676, 0xEA23F0AF, 0xEEE2ED18, 0xF0A5BD1D, 0xF464A0AA, 0xF9278673, 0xFDE69BC4,
    0x89B8FD09, 0x8D79E0BE, 0x803AC667, 0x84FBDBD0, 0x9ABC8BD5, 0x9E7D9662, 0x933EB0BB, 0x97FFAD0C,
    0xAFB010B1, 0xAB710D06, 0xA6322BDF, 0xA2F33668, 0xBCB4666D, 0xB8757BDA, 0xB5365D03, 0xB1F740B4]

/-- The generation of entry i, as R68 writes it. -/
def generatedEntry (i : Nat) : Word :=
  (List.range 8).foldl (fun c _ => if c.getLsbD 31 then (c <<< 1) ^^^ 0x04C11DB7 else c <<< 1)
    (BitVec.ofNat 32 (i * 2 ^ 24))

/-- The draws after n AES invocations. -/
def drawsAfter (d : Draws Bool) (n : Nat) : Draws Bool := ⟨d.script.drop n, d.used + n⟩

/-- A command's effect on an outcome's state. -/
def mapNext (f : State → State) : Host.Outcome State Fault Refusal → Host.Outcome State Fault Refusal
  | .next t => .next (f t)
  | .fault r => .fault r
  | .refused r => .refused r

/-- One command after another. -/
def andThen (o : Host.Outcome State Fault Refusal) (f : State → Host.Outcome State Fault Refusal) :
    Host.Outcome State Fault Refusal :=
  match o with
  | .next t => f t
  | .fault r => .fault r
  | .refused r => .refused r

end Sys2Proof.Claims

open Sys2Proof Sys2Proof.Machine Sys2Proof.Safety Sys2Proof.Claims

/-! ### Encoding -/

/-- R64: the words of the seven commands, both ways. -/
def Obligations.CommandWordsDecode : Prop :=
  decode 0x00000001 = .ok .crc32 ∧ decode 0x00000002 = .ok .scramble ∧ decode 0x00000003 = .ok .buildBlob ∧
  decode 0x00000004 = .ok .kwrap ∧ decode 0x00000005 = .ok .blobSwap ∧ decode 0x00000006 = .ok .extCtr ∧
  decode 0x00000007 = .ok .ctrCrypt

/-- R62, R64: decoding an encoded command gives it back, and a word that decodes is that command's word. -/
def Obligations.DecodeEncodeRoundTrip : Prop :=
  (∀ i : Instr, i.wf = true → decode (encode i) = .ok i) ∧
  ∀ (w : Word) (i : Instr), decode w = .ok i → encode i = w

/-- R63, R65, R122: every word with RSVD not 0, or OP 0x0 or 0x8 to 0xF, is accepted, and its engine step raises
IllegalCommand and writes nothing but STATUS and PENDING; every other word is one of the seven commands. That the
engine step comes when the delay is 0, and that an acceptance draws the delay, is the model's (log 5); so is the
reset input that must not be set (log 7). -/
def Obligations.IllegalWordsRaiseIllegalCommand : Prop :=
  ∀ w : Word,
    ((w.extractLsb 31 4 ≠ 0 ∨ (w.extractLsb 3 0).toNat = 0 ∨ 8 ≤ (w.extractLsb 3 0).toNat) →
      (∀ s : State, s.busy = false → ∃ t, writeWindow 0x000 w s = some t ∧
        t = { s with pending := some w, done := false, err := none, delay := t.delay, delays := t.delays }) ∧
      ∀ s : State, s.resetPin = false → s.pending = some w → s.delay = 0 →
        step s = .next { s with err := some .illegalCommand, done := true, pending := none }) ∧
    (¬ (w.extractLsb 31 4 ≠ 0 ∨ (w.extractLsb 3 0).toNat = 0 ∨ 8 ≤ (w.extractLsb 3 0).toNat) →
      ∃ i, decode w = .ok i)

/-! ### The step -/

/-- R15, R61: when no reset is requested and the pending word's delay has run out, the step is exec of the
command the word decodes to; so it is after withFetchWord. The delay is the model's (log 5). -/
def Obligations.StepRunsPendingCommand : Prop :=
  (∀ (s : State) (w : Word) (i : Instr), s.resetPin = false → s.pending = some w → s.delay = 0 →
    decode w = .ok i → step s = exec i s) ∧
  ∀ (s : State) (i : Instr), step (s.withFetchWord 32 (encode i).toNat) =
    exec i (s.withFetchWord 32 (encode i).toNat)

/-- R15, R139, R142: without a pending command the host moves; with one whose delay has not run out the host
moves and the delay runs down by one; an ended program leaves the state. The delay is the model's (log 5). -/
def Obligations.StepMovesHostWhileWaiting : Prop :=
  ∀ s : State, s.resetPin = false →
    (s.pending = none → step s = hostStep s) ∧
    (∀ w d, s.pending = some w → s.delay = d + 1 → step s = hostStep { s with delay := d }) ∧
    (∀ op, s.program[s.hostPc]? = some op → hostStep s = hostOp op s) ∧
    (s.program.length ≤ s.hostPc → hostStep s = .next s)

/-- R131, R133: a step that finds a reset requested discards a pending command and gives every register its
reset value; the parameters stay. That a reset is an input flag, taken before a pending command, is the model's
(log 7), and so is the number of resets that makes the buffers' draws fresh (log 3). -/
def Obligations.ResetStepGivesResetValues : Prop :=
  ∀ s : State, s.resetPin = true → ∃ t, step s = .next t ∧ AtResetValues t ∧ t.cfg = s.cfg

/-- R131: the state after reset has the reset values. -/
def Obligations.ResetStateHasResetValues : Prop := AtResetValues State.reset

/-- The invariant holds at reset. -/
def Obligations.InvariantAtReset : Prop := Inv State.reset

/-- Every step keeps the invariant: canonical memory inside the buffers, DONE and ERR clear while BUSY, legal
parameters (R5, R20, R47, R61). -/
def Obligations.StepKeepsInvariant : Prop :=
  ∀ s t : State, Inv s → step s = .next t → Inv t

/-- R5, R29: no step changes a parameter, FLASH_BASE among them; the trace of R67 only grows. That the host program is
a field of the state is the model's (log 6), and that a reset keeps program and trace too (log 7). -/
def Obligations.StepKeepsParametersAndProgram : Prop :=
  ∀ s t : State, step s = .next t → t.cfg = s.cfg ∧ t.program = s.program ∧ ∃ l, t.trace = s.trace ++ l

/-- R20, R43: a pending command stays pending until the engine step that performs it, or a reset. -/
def Obligations.BusyUntilPerformed : Prop :=
  ∀ (s t : State) (w : Word), s.pending = some w → step s = .next t → t.pending ≠ some w →
    s.resetPin = true ∨ (s.delay = 0 ∧ t.pending = none ∧ t.done = true)

/-- R20: OVR, once set, is cleared only by a reset or by a host write to STATUS with bit 2 set. -/
def Obligations.OvrStaysUntilCleared : Prop :=
  ∀ s t : State, s.ovr = true → step s = .next t → t.ovr = false →
    s.resetPin = true ∨ ∃ v : Word, s.program[s.hostPc]? = some (.wr 0x004 v) ∧ v.getLsbD 2 = true

/-- R20, R59: OVR is set only by a host write, to a register other than STATUS, while a command is pending. -/
def Obligations.OvrSetOnlyByLostWrite : Prop :=
  ∀ s t : State, s.ovr = false → step s = .next t → t.ovr = true →
    s.busy = true ∧ ∃ (off : Nat) (v : Word), s.program[s.hostPc]? = some (.wr off v) ∧ off ≠ 0x004

/-- R139: a pending command is performed after finitely many steps: as long as the host's steps answer a next
state, the delay runs out with the command still pending, and then the engine performs it. With a program that
has ended nothing can stop that. The delay is the model's (log 5). -/
def Obligations.EngineIsReached : Prop :=
  (∀ (s t : State) (w : Word), s.resetPin = false → s.pending = some w →
    core.run s.delay s = .next t →
      t.pending = some w ∧ t.delay = 0 ∧ t.resetPin = false ∧ step t = engineStep w t) ∧
  ∀ (s : State) (w : Word), s.resetPin = false → s.pending = some w → s.program.length ≤ s.hostPc →
    core.run (s.delay + 1) s = engineStep w { s with delay := 0 }

/-! ### The register window -/

/-- R18, R42, R47: the window's layout. -/
def Obligations.WindowLayout : Prop :=
  ∀ (cfg : Config) (off : Nat), cfg.Legal →
    (∀ row ∈ windowMap cfg, off % 4 = 0 → row.2.1 ≤ off → off < row.2.1 + row.2.2 →
      regAt cfg off = some (row.1, (off - row.2.1) / 4)) ∧
    (off % 4 ≠ 0 ∨ Reserved cfg off → regAt cfg off = none)

/-- R48: an access of another width, at an offset not a multiple of 4, or to a reserved offset ends the run in
HostBusError. That an offset outside the window is one of these is the model's (log 9), and that another width ends
so and is not refused under R125 (log 16); and so is that a BNZ may name any offset (log 28). -/
def Obligations.IllegalAccessesAreBusErrors : Prop :=
  ∀ (s : State) (off : Nat), s.cfg.Legal →
    (off % 4 ≠ 0 ∨ Reserved s.cfg off →
      (∀ v, hostOp (.wr off v) s = .fault .hostBusError) ∧ hostOp (.rd off) s = .fault .hostBusError ∧
      ∀ mask l, hostOp (.bnz off mask l) s = .fault .hostBusError) ∧
    ∀ width isWrite, hostOp (.otherWidth width isWrite off) s = .fault .hostBusError

/-- R67, R125: what each host operation does at a legal offset; an operation outside the forms is refused. That a
taken branch to a label that does not stand exactly once is refused is the model's reading (log 15); so is that a
label is a host step of its own, and that a BNZ reads and decides in one step and records no value (log 22), at any
offset, where R67 writes a register (log 28). -/
def Obligations.HostOperations : Prop :=
  ∀ (s : State) (off : Nat), s.cfg.Legal →
    (∀ v u, writeWindow off v s = some u → hostOp (.wr off v) s = .next { u with hostPc := u.hostPc + 1 }) ∧
    (∀ v u, readWindow off s = some (v, u) →
      hostOp (.rd off) s = .next { u with hostPc := u.hostPc + 1, trace := u.trace ++ [v] }) ∧
    (∀ v u mask l, readWindow off s = some (v, u) → v &&& mask = 0 →
      hostOp (.bnz off mask l) s = .next { u with hostPc := u.hostPc + 1 }) ∧
    (∀ v u mask l t, readWindow off s = some (v, u) → v &&& mask ≠ 0 → labelIndex s.program l = some t →
      hostOp (.bnz off mask l) s = .next { u with hostPc := t }) ∧
    (∀ v u mask l, readWindow off s = some (v, u) → v &&& mask ≠ 0 → labelIndex s.program l = none →
      hostOp (.bnz off mask l) s = .refused .undefinedLabel) ∧
    (∀ l, hostOp (.label l) s = .next { s with hostPc := s.hostPc + 1 }) ∧
    hostOp .foreign s = .refused .foreignHostOp

/-- R67: a label that stands once in a program is the place BNZ continues at. -/
def Obligations.LabelIndexFindsTheLabel : Prop :=
  ∀ (p : List HostOp) (l t : Nat), labelIndex p l = some t ↔
    (p[t]? = some (.label l) ∧ ∀ j, p[j]? = some (.label l) → j = t)

/-- R67: the pseudo-operations and their expansions, each in whole: every operation and the number of them. What WRB
does with a byte count, and RDB with an n, that is no multiple of 4 is the model's (log 25). -/
def Obligations.PseudoOperationsExpand : Prop :=
  (∀ i, opCmd i = [.wr 0x000 (encode i)]) ∧
  (∀ l, opWait l = [.label l, .bnz 0x004 0x1 l]) ∧
  (∀ i l, opRun i l = [.wr 0x000 (encode i), .label l, .bnz 0x004 0x1 l]) ∧
  (∀ (r : Reg) (bytes : List Byte) (k : Nat) (h : 4 * k + 4 ≤ bytes.length), (opWrb r bytes)[k]? =
    some (.wr (r.base + 4 * k) (fromLE32 #v[bytes[4 * k], bytes[4 * k + 1], bytes[4 * k + 2], bytes[4 * k + 3]]))) ∧
  (∀ r (bytes : List Byte), bytes.length % 4 = 0 → (opWrb r bytes).length = bytes.length / 4) ∧
  (∀ r (bytes : List Byte), bytes.length % 4 ≠ 0 → (opWrb r bytes).length = bytes.length / 4 + 1 ∧
    (opWrb r bytes)[bytes.length / 4]? = some .foreign) ∧
  (∀ r n k, k < n / 4 → (opRdb r n)[k]? = some (.rd (r.base + 4 * k))) ∧
  (∀ r n, (opRdb r n).length = n / 4) ∧
  opClr = [.wr 0x004 0x6]

/-- R50: byte 4k + j of a byte-array register is bits [8j+7 : 8j] of its word k, on a read and on a write, and a
write leaves the register's other bytes alone; a numeric register reads and writes its value. -/
def Obligations.ByteLanes : Prop :=
  ∀ s : State,
    (∀ r k j b, j < 4 → arrayByte s r (4 * k + j) = some b →
      (s.regWord r k).extractLsb' (8 * j) 8 = b) ∧
    (∀ r ∈ readWriteRegs, ∀ k w i b, arrayByte s r i = some b → 4 * k + 4 ≤ r.size s.cfg →
      arrayByte (writeReg r k w s) r i = some (if i / 4 = k then w.extractLsb' (8 * (i % 4)) 8 else b)) ∧
    ∀ w, (writeReg .len 0 w s).len = w ∧ (writeReg .startAddr 0 w s).startAddr = w ∧
      (writeReg .endAddr 0 w s).endAddr = w ∧ (writeReg .endFlags 0 w s).endFlags = w ∧
      (writeReg .baseAddr 0 w s).baseAddr = w ∧
      s.regWord .len 0 = s.len ∧ s.regWord .startAddr 0 = s.startAddr ∧ s.regWord .endAddr 0 = s.endAddr ∧
      s.regWord .endFlags 0 = s.endFlags ∧ s.regWord .baseAddr 0 = s.baseAddr ∧
      s.regWord .flashBase 0 = s.cfg.flashBase ∧ s.regWord .crcResult 0 = s.crcResult

/-- R21 to R40, R42, R52: while idle, a word written to a read-write register is read back (reserved bits as 0),
every other word of the window reads as before, and a read-only register ignores the write. -/
def Obligations.HostWriteIsReadBack : Prop :=
  ∀ (s : State) (off : Nat) (r : Reg) (k : Nat) (w : Word), s.cfg.Legal → s.busy = false →
    regAt s.cfg off = some (r, k) →
    (r ∈ readWriteRegs → ∃ t, writeWindow off w s = some t ∧ t.regWord r k = storedWord r w ∧
      (∀ off' r' k', off' ≠ off → regAt s.cfg off' = some (r', k') → t.regWord r' k' = s.regWord r' k') ∧
      t.pending = s.pending ∧ t.program = s.program ∧ t.hostPc = s.hostPc ∧ t.trace = s.trace) ∧
    (r ∈ readOnlyRegs → writeWindow off w s = some s)

/-- R59: while a command is pending, a write to any register other than STATUS is lost and sets OVR, CMD
included; a write that meets a bus error sets nothing. -/
def Obligations.WritesWhileBusyAreLost : Prop :=
  ∀ (s : State) (off : Nat) (w : Word), s.busy = true →
    (∀ r k, regAt s.cfg off = some (r, k) → r ≠ .status →
      writeWindow off w s = some { s with ovr := true }) ∧
    (regAt s.cfg off = none → writeWindow off w s = none)

/-- R52, R58: while idle a read returns the register's value and changes nothing; while a command is pending, so
does a read of a register that is no output of it, and a read of an output returns the next free draw and changes
nothing but the draws. That a register is drawn whole where the command writes it in part is read from U2 of
93_implementation_defined.md, and that BLOB_CT bytes 48..63 read 0 all the same from R38 (log 4). -/
def Obligations.HostReads : Prop :=
  ∀ (s : State) (off : Nat) (r : Reg) (k : Nat), regAt s.cfg off = some (r, k) →
    (s.busy = false → readWindow off s = some (s.regWord r k, s)) ∧
    (r = .status → readWindow off s = some (s.statusWord, s)) ∧
    (∀ w i, s.pending = some w → decode w = .ok i →
      (r ∉ outputRegs i → readWindow off s = some (s.regWord r k, s)) ∧
      (r ∈ outputRegs i → ¬ (r = .blobCt ∧ 12 ≤ k) → readWindow off s =
        some (s.busyReads.draw Config.busyRead 0, { s with busyReads := s.busyReads.advance })) ∧
      (r = .blobCt → 12 ≤ k → readWindow off s = some (0, s))) ∧
    (∀ w, s.pending = some w → (decode w).toOption = none → readWindow off s = some (s.regWord r k, s))

/-- R61, R19: a write to CMD while idle is accepted, whatever the word; every command's engine step ends with
PENDING none, DONE set and BUSY clear; a write to CMD while busy is not accepted; CMD reads 0. -/
def Obligations.AcceptanceAndCompletion : Prop :=
  (∀ (s : State) (w : Word), s.busy = false → ∃ t, writeWindow 0x000 w s = some t ∧
    t = { s with pending := some w, done := false, err := none, delay := t.delay, delays := t.delays }) ∧
  (∀ (i : Instr) (s : State), ∃ t, exec i s = .next t ∧ t.pending = none ∧ t.busy = false ∧ t.done = true ∧
    t.ovr = s.ovr) ∧
  (∀ (s : State) (w v : Word), s.pending = some v → ∃ t, writeWindow 0x000 w s = some t ∧ t.pending = some v) ∧
  ∀ s : State, s.regWord .cmd 0 = 0

/-- R20, R116: the fields of STATUS; the reserved bits read 0; ERR is one of the codes 0 to 4. -/
def Obligations.StatusFields : Prop :=
  ∀ s : State, (s.statusWord.getLsbD 0 = s.pending.isSome) ∧ s.statusWord.getLsbD 1 = s.done ∧
    s.statusWord.getLsbD 2 = s.ovr ∧ s.statusWord.extractLsb' 3 5 = 0 ∧
    s.statusWord.extractLsb' 8 4 = (match s.err with
      | none => 0
      | some .inputSizeMismatch => 1
      | some .blockCipherFailure => 2
      | some .addressRangeInvalid => 3
      | some .illegalCommand => 4) ∧
    s.statusWord.extractLsb' 12 20 = 0

/-- R20: a write to STATUS is accepted at any time; it clears DONE and OVR where the written bit is 1 and changes
nothing else, so it never sets OVR. -/
def Obligations.StatusWriteClears : Prop :=
  ∀ (s : State) (w : Word), ∃ t, writeWindow 0x004 w s = some t ∧
    t.statusWord = s.statusWord &&& ~~~(w &&& 0x6) ∧ t = { s with done := t.done, ovr := t.ovr }

/-! ### CRC32 -/

/-- R69: the update step is the source's merge form, and that form equals the XOR form. -/
def Obligations.CrcStepIsShiftXor : Prop :=
  ∀ (t : CrcTable) (crc : Word) (b : Byte),
    crcStep t crc b = ((crc <<< 8) ^^^ (crcTableEntry t (crc.extractLsb' 24 8 ^^^ b) &&& 0xFFFFFF00)) |||
      (crcTableEntry t (crc.extractLsb' 24 8 ^^^ b) &&& 0xFF) ∧
    crcStep t crc b = (crc <<< 8) ^^^ crcTableEntry t (crc.extractLsb' 24 8 ^^^ b)

/-- R71: the CRC32 command: its result over DATA_IN[0..LEN), the length error, and the frame. -/
def Obligations.Crc32Result : Prop :=
  ∀ s : State,
    (s.len.toNat ≤ s.cfg.dataCap → exec .crc32 s = .next { s with
      crcResult := (List.range s.len.toNat).foldl
        (fun crc k => crcStep s.cfg.crcTable crc (s.bufByte (0x100000 + k))) 0xFFFFFFFF
      err := none, done := true, pending := none }) ∧
    (s.cfg.dataCap < s.len.toNat → exec .crc32 s = .next { s with
      err := some .inputSizeMismatch, done := true, pending := none })

/-- R71: ERR of CRC32 and, when the length is legal, CRC_RESULT depend on nothing but LEN, the parameters and
DATA_IN[0..LEN); when the length is not legal, CRC_RESULT is unchanged. -/
def Obligations.Crc32ReadsOnlyItsInput : Prop :=
  ∀ s s' t t' : State, s.len = s'.len → s.cfg = s'.cfg →
    (∀ k < s.len.toNat, s.bufByte (0x100000 + k) = s'.bufByte (0x100000 + k)) →
    exec .crc32 s = .next t → exec .crc32 s' = .next t' → t.err = t'.err ∧
      (s.len.toNat ≤ s.cfg.dataCap → t.crcResult = t'.crcResult) ∧
      (s.cfg.dataCap < s.len.toNat → t.crcResult = s.crcResult ∧ t'.crcResult = s'.crcResult)

/-! ### SCRAMBLE -/

/-- R73, R74, R75: SCRAMBLE XORs scramble byte k into KEK byte 4 * slot + k and writes SKEK, nothing else. -/
def Obligations.ScrambleResult : Prop :=
  ∀ s : State, ∃ t, exec .scramble s = .next t ∧
    t = { s with skek := t.skek, err := none, done := true, pending := none } ∧
    ∀ i : Fin 16, t.skek[i] =
      if i.val / 4 = ((s.align >>> (2 * s.ctxSel.toNat)) &&& 3).toNat
      then s.kek[i] ^^^ s.scr[i.val % 4]'(Nat.mod_lt _ (by decide)) else s.kek[i]

/-- R76: scrambling twice with the same values restores the key, as a function and on the core. The copy of SKEK into
KEK between the two, for which R76 has host writes, is a record update here. -/
def Obligations.ScrambleIsSelfInverse : Prop :=
  (∀ (kek : Bytes 16) (scr : Bytes 4) (align : Byte) (ctx : BitVec 2),
    scramble (scramble kek scr align ctx) scr align ctx = kek) ∧
  ∀ s t u : State, exec .scramble s = .next t → exec .scramble { t with kek := t.skek } = .next u →
    u.skek = s.kek

/-! ### BUILD_BLOB -/

/-- R95: the range check, with unsigned comparisons; its third conjunct follows from the first two. -/
def Obligations.RangeCheck : Prop :=
  ∀ startAddr endAddr flashBase : Word,
    (rangeOk startAddr endAddr flashBase = true ↔
      (startAddr.toNat < endAddr.toNat ∧ flashBase.toNat ≤ startAddr.toNat ∧
        flashBase.toNat ≤ endAddr.toNat)) ∧
    (rangeOk startAddr endAddr flashBase = true ↔
      (startAddr.toNat < endAddr.toNat ∧ flashBase.toNat ≤ startAddr.toNat))

/-- R92, R93, R94, R96: BUILD_BLOB's blob, field by field, its CRC, the range error, and the frame. -/
def Obligations.BuildBlobResult : Prop :=
  ∀ s : State,
    (rangeOk s.startAddr s.endAddr s.cfg.flashBase = true → ∃ t, exec .buildBlob s = .next t ∧
      t = { s with blobPt := t.blobPt, crcResult := t.crcResult, err := none, done := true, pending := none } ∧
      slice t.blobPt 0 16 = s.imgKey ∧ slice t.blobPt 16 8 = s.ctr8 ∧ slice t.blobPt 24 4 = le32 s.startAddr ∧
      slice t.blobPt 28 4 = le32 (s.endAddr ||| s.endFlags) ∧ slice t.blobPt 32 4 = #v[0, 0, 0, 0] ∧
      t.crcResult = crc32 s.cfg.crcTable (slice t.blobPt 0 32).toList ∧
      (s.cfg.crcStoreOrder = .little → slice t.blobPt 36 4 = le32 t.crcResult) ∧
      (s.cfg.crcStoreOrder = .big → slice t.blobPt 36 4 = be32 t.crcResult)) ∧
    (rangeOk s.startAddr s.endAddr s.cfg.flashBase = false → exec .buildBlob s = .next { s with
      err := some .addressRangeInvalid, done := true, pending := none })

/-! ### KWRAP and BLOB_SWAP -/

/-- R80: 30 rounds, j outside and i inside, with counters 1, 2, ..., 30. -/
def Obligations.WrapRoundOrder : Prop :=
  roundOrder = (List.range 6).flatMap (fun j => (List.finRange 5).map fun i => (j, i)) ∧
  roundOrder.map (fun p => roundCounter p.1 p.2) = List.range' 1 30

/-- R82: KWRAP writes the wrap of BLOB_PT with IV under SKEK when none of its 30 AES invocations fails, and
nothing but STATUS when one does; in both cases only the draws of AES_FAULT move besides. -/
def Obligations.KwrapResult : Prop :=
  ∀ s : State,
    (NoAesFailure s 30 → exec .kwrap s = .next { s with
      blobCt := pureWrap (cipherFn s.cfg.cipher) s.blobPt s.iv s.skek
      aesDraws := drawsAfter s.aesDraws 30, err := none, done := true, pending := none }) ∧
    (∀ k < 30, (∀ j < k, s.aesDraws.draw Config.aesFault j = false) →
      s.aesDraws.draw Config.aesFault k = true → exec .kwrap s = .next { s with
        aesDraws := drawsAfter s.aesDraws (k + 1), err := some .blockCipherFailure, done := true,
        pending := none })

/-- R88: for every block cipher with a decryption, the unwrap of a wrap returns the plaintext and the integrity
value, and swapping a swapped blob gives the wrap back. -/
def Obligations.UnwrapInvertsWrap : Prop :=
  ∀ (enc dec : Bytes 16 → Bytes 16 → Bytes 16) (p : Bytes 40) (iv : Bytes 8) (k : Bytes 16),
    (∀ b, dec k (enc k b) = b) →
    unwrap dec (pureWrap enc p iv k) k = (iv, p) ∧
    unwrap dec (swapBlob (swapBlob (pureWrap enc p iv k))) k = (iv, p)

/-- R84, R85: WSWAP reverses each 8-byte half, and is its own inverse. -/
def Obligations.WordSwapReversesHalves : Prop :=
  ∀ b : Bytes 16,
    (∀ (i : Nat) (h : i < 8), (wswap b)[i] = b[7 - i] ∧ (wswap b)[8 + i] = b[15 - i]) ∧
    wswap (wswap b) = b

/-- R86: BLOB_SWAP applies WSWAP to each of the three 16-byte words of BLOB_CT and changes nothing else. That bytes
48..63 have no storage, so that they cannot change, is the model's (log 13). -/
def Obligations.BlobSwapResult : Prop :=
  ∀ s : State, ∃ t, exec .blobSwap s = .next t ∧
    t = { s with blobCt := t.blobCt, err := none, done := true, pending := none } ∧
    ∀ m < 3, slice t.blobCt (16 * m) 16 = wswap (slice s.blobCt (16 * m) 16)

/-- R85, R86, R135: a second BLOB_SWAP restores the raw wrap. -/
def Obligations.SecondBlobSwapRestores : Prop :=
  ∀ s t u : State, exec .blobSwap s = .next t → exec .blobSwap t = .next u → u.blobCt = s.blobCt

/-- R38, R87: bytes 48..63 of BLOB_CT read 0 in every state. -/
def Obligations.BlobPaddingReadsZero : Prop :=
  ∀ s : State, (∀ i : Fin 16, s.blobFile[48 + i.val] = 0) ∧ (∀ i : Fin 48, s.blobFile[i.val] = s.blobCt[i]) ∧
    ∀ k, 12 ≤ k → k < 16 → s.regWord .blobCt k = 0

/-! ### EXT_CTR and CTR_CRYPT -/

/-- R101, R105: EXT_CTR writes CTR8, its XOR digest and BASE_ADDR big-endian into CTR16, and nothing else. -/
def Obligations.ExtCtrResult : Prop :=
  ∀ s : State, ∃ t, exec .extCtr s = .next t ∧
    t = { s with ctr16 := t.ctr16, err := none, done := true, pending := none } ∧
    slice t.ctr16 0 8 = s.ctr8 ∧ (∀ i : Fin 4, t.ctr16[8 + i.val] = s.ctr8[i.val] ^^^ s.ctr8[4 + i.val]) ∧
    slice t.ctr16 12 4 = be32 s.baseAddr

/-- R104, R106, R107, R109: with a legal length and no AES failure, CTR_CRYPT writes each byte of DATA_OUT[0..LEN)
as the byte of DATA_IN XORed with its own block's keystream, whatever the order of the blocks; it writes no other
byte of memory and no other register but CTR16 and STATUS. -/
def Obligations.CtrCryptResult : Prop :=
  ∀ s : State, s.len.toNat ≤ s.cfg.dataCap → s.len.toNat % 16 = 0 →
    NoAesFailure s (s.len.toNat / 16) → ∃ t, exec .ctrCrypt s = .next t ∧
      t = { s with mem := t.mem, ctr16 := t.ctr16, aesDraws := drawsAfter s.aesDraws (s.len.toNat / 16)
                   err := none, done := true, pending := none } ∧
      (∀ k < s.len.toNat / 16, ∀ i : Fin 16, t.bufByte (0x200000 + (16 * k + i.val)) =
        s.bufByte (0x100000 + (16 * k + i.val)) ^^^
          (keystream (cipherFn s.cfg.cipher) s.imgKey s.ctr16 s.baseAddr k)[i]) ∧
      ∀ a, (a < 0x200000 ∨ 0x200000 + s.len.toNat ≤ a) → t.bufByte a = s.bufByte a

/-- R110: CTR16 after a CTR_CRYPT that succeeded. -/
def Obligations.CounterAfterSuccess : Prop :=
  ∀ s t : State, ctrLengthOk s.cfg s.len = true → exec .ctrCrypt s = .next t → t.err = none →
    (16 ≤ s.len.toNat → slice t.ctr16 0 12 = slice s.ctr16 0 12 ∧
      slice t.ctr16 12 4 = be32 (s.baseAddr + (s.len - 16))) ∧
    (s.len = 0 → t.ctr16 = s.ctr16)

/-- R108: CTR_CRYPT with LEN above DATA_CAP or not a multiple of 16 raises InputSizeMismatch and writes nothing
else. -/
def Obligations.CtrCryptLengthError : Prop :=
  ∀ s : State, (s.cfg.dataCap < s.len.toNat ∨ s.len.toNat % 16 ≠ 0) → exec .ctrCrypt s = .next { s with
    err := some .inputSizeMismatch, done := true, pending := none }

/-- R111: when the AES invocation of block k is the first to fail, DATA_OUT is unchanged and CTR16 holds the
address of block k. -/
def Obligations.CtrCryptFailure : Prop :=
  ∀ (s : State) (k : Nat), ctrLengthOk s.cfg s.len = true → k < s.len.toNat / 16 →
    (∀ j < k, s.aesDraws.draw Config.aesFault j = false) → s.aesDraws.draw Config.aesFault k = true →
    ∃ t, exec .ctrCrypt s = .next t ∧
      t = { s with ctr16 := t.ctr16, aesDraws := drawsAfter s.aesDraws (k + 1)
                   err := some .blockCipherFailure, done := true, pending := none } ∧
      slice t.ctr16 0 12 = slice s.ctr16 0 12 ∧
      slice t.ctr16 12 4 = be32 (s.baseAddr + BitVec.ofNat 32 (16 * k))

/-- R112: encrypting the output with the same key, counter and base gives the input back. -/
def Obligations.CtrIsSelfInverse : Prop :=
  ∀ (enc : Bytes 16 → Bytes 16 → Bytes 16) (pt ct : List (Bytes 16)) (key ctr16 : Bytes 16) (base : Word)
    (d d' : Draws Bool), (otfadCtr enc pt key ctr16 base d).out = some ct →
    (∀ k < pt.length, d'.draw Config.aesFault k = false) →
    (otfadCtr enc ct key ctr16 base d').out = some pt

/-- R114: the output and the final counter do not depend on bytes 12..15 of CTR16 when there is a block, as a
function and on the core. -/
def Obligations.CounterAddressFieldIsDead : Prop :=
  (∀ (enc : Bytes 16 → Bytes 16 → Bytes 16) (pt : List (Bytes 16)) (key c c' : Bytes 16) (base : Word)
    (d : Draws Bool), pt ≠ [] → slice c 0 12 = slice c' 0 12 →
    otfadCtr enc pt key c base d = otfadCtr enc pt key c' base d) ∧
  ∀ (s : State) (c : Bytes 16), ctrLengthOk s.cfg s.len = true → 16 ≤ s.len.toNat →
    slice c 0 12 = slice s.ctr16 0 12 → exec .ctrCrypt { s with ctr16 := c } = exec .ctrCrypt s

/-! ### All commands -/

/-- R120, R124: after an error nothing has changed but STATUS, PENDING and the draws, except bytes 12..15 of CTR16
after a BlockCipherFailure of CTR_CRYPT. -/
def Obligations.ErrorsArePrecise : Prop :=
  ∀ (i : Instr) (s t : State) (e : CmdError), exec i s = .next t → t.err = some e →
    t = { s with err := some e, done := true, pending := none, ctr16 := t.ctr16, aesDraws := t.aesDraws } ∧
    slice t.ctr16 0 12 = slice s.ctr16 0 12 ∧
    (¬ (i = .ctrCrypt ∧ e = .blockCipherFailure) → t.ctr16 = s.ctr16 ∧
      (e ≠ .blockCipherFailure → t.aesDraws = s.aesDraws))

/-- R116: which command can raise which error. -/
def Obligations.ErrorsByCommand : Prop :=
  ∀ (i : Instr) (s t : State) (e : CmdError), exec i s = .next t → t.err = some e →
    (e = .inputSizeMismatch ∧ (i = .crc32 ∨ i = .ctrCrypt)) ∨
    (e = .blockCipherFailure ∧ (i = .kwrap ∨ i = .ctrCrypt)) ∨
    (e = .addressRangeInvalid ∧ i = .buildBlob)

/-- R64, R120: no command changes a register outside its column 'writes'; in particular every input register keeps
its value, no byte of memory changes but DATA_OUT[0..LEN) under CTR_CRYPT, and the host agent does not move. The
draws are the model's own fields (logs 2, 4, 5). -/
def Obligations.CommandFrame : Prop :=
  ∀ (i : Instr) (s t : State), exec i s = .next t →
    (t.kek = s.kek ∧ t.imgKey = s.imgKey ∧ t.ctr8 = s.ctr8 ∧ t.iv = s.iv ∧ t.scr = s.scr ∧
      t.len = s.len ∧ t.ctxSel = s.ctxSel ∧ t.align = s.align ∧ t.startAddr = s.startAddr ∧
      t.endAddr = s.endAddr ∧ t.endFlags = s.endFlags ∧ t.baseAddr = s.baseAddr ∧ t.cfg = s.cfg ∧
      t.ovr = s.ovr ∧ t.pending = none ∧ t.done = true) ∧
    (t.program = s.program ∧ t.hostPc = s.hostPc ∧ t.trace = s.trace ∧ t.delay = s.delay ∧
      t.delays = s.delays ∧ t.busyReads = s.busyReads ∧ t.resets = s.resets ∧ t.resetPin = s.resetPin) ∧
    (i ≠ .kwrap → i ≠ .ctrCrypt → t.aesDraws = s.aesDraws) ∧
    (i ≠ .crc32 → i ≠ .buildBlob → t.crcResult = s.crcResult) ∧
    (i ≠ .scramble → t.skek = s.skek) ∧
    (i ≠ .buildBlob → t.blobPt = s.blobPt) ∧
    (i ≠ .kwrap → i ≠ .blobSwap → t.blobCt = s.blobCt) ∧
    (i ≠ .extCtr → i ≠ .ctrCrypt → t.ctr16 = s.ctr16) ∧
    (i ≠ .extCtr → slice t.ctr16 0 12 = slice s.ctr16 0 12) ∧
    (∀ a, (i ≠ .ctrCrypt ∨ a < 0x200000 ∨ 0x200000 + s.len.toNat ≤ a) → t.bufByte a = s.bufByte a)

/-- R40: only CTR_CRYPT, or a reset, changes a byte of DATA_OUT, and only bytes below LEN. -/
def Obligations.DataOutOnlyFromCtrCrypt : Prop :=
  ∀ (s t : State) (a : Nat), s.cfg.Legal → 0x200000 ≤ a → step s = .next t → t.bufByte a ≠ s.bufByte a →
    s.resetPin = true ∨
      (s.delay = 0 ∧ (∃ w, s.pending = some w ∧ decode w = .ok .ctrCrypt) ∧ a < 0x200000 + s.len.toNat)

/-- R64, R31: only SCRAMBLE reads KEK: any other command does the same whatever KEK holds. -/
def Obligations.OnlyScrambleReadsKek : Prop :=
  ∀ (i : Instr) (s : State) (k : Bytes 16), i ≠ .scramble →
    exec i { s with kek := k } = mapNext (fun t => { t with kek := k }) (exec i s)

/-- R136: a command of the key-blob path and one of the image path give the same registers and buffers in either
order, when none of their AES invocations fails; STATUS.ERR is that of the later one. -/
def Obligations.PathsAreIndependent : Prop :=
  ∀ (s : State) (i j : Instr),
    (i = .scramble ∨ i = .buildBlob ∨ i = .kwrap ∨ i = .blobSwap) → (j = .extCtr ∨ j = .ctrCrypt) →
    NoAesFailure s (30 + s.len.toNat / 16) →
    mapNext (fun t => { t with err := none }) (andThen (exec i s) (exec j)) =
      mapNext (fun t => { t with err := none }) (andThen (exec j s) (exec i))

/-- R20, R53, R59: a write to any register other than CMD is idempotent: to STATUS because it only clears bits (R20),
while busy because it is lost (R59), else by R53; and so is a read, CMD's included, while idle. -/
def Obligations.AccessesAreIdempotent : Prop :=
  (∀ (s t : State) (off : Nat) (w : Word), off ≠ 0x000 → writeWindow off w s = some t →
    writeWindow off w t = some t) ∧
  ∀ (s u : State) (off : Nat) (v : Word), s.busy = false → readWindow off s = some (v, u) →
    u = s ∧ readWindow off u = some (v, u)

/-! ### The functions the commands are made of -/

/-- R68: the CRC table's entries, as the rule generates them and as it prints them; the decided parameter takes this
table. The reflected table's entry 1, which the rule names, is the alternative's. -/
def Obligations.CrcTableHasTheSpecsEntries : Prop :=
  (∀ i < 256, crcTableEntry .msbFirst (BitVec.ofNat 8 i) = generatedEntry i) ∧
  (List.range 256).map (fun i => (crcTableEntry .msbFirst (BitVec.ofNat 8 i)).toNat) = specCrcTable ∧
  Config.chip.crcTable = .msbFirst ∧ crcTableEntry .reflected 1 = 0x77073096

/-- R78, R79, R81: what the wrap's registers start as, what a round with cipher output B makes of them, and what
they give: A and R[i] go into the cipher in that order, A becomes MSB64(B) with 5j + i XORed into byte 7, R[i] becomes
LSB64(B), and no other R changes. -/
def Obligations.WrapRoundFields : Prop :=
  (∀ (p : Bytes 40) (iv : Bytes 8), (wrapInit p iv).a = iv ∧
    ∀ (i : Fin 5) (m : Nat) (h : m < 8), ((wrapInit p iv).r[i])[m] = p[8 * i.val + m]) ∧
  (∀ (j : Nat) (i : Fin 5) (b : Bytes 16) (w : WrapRegs),
    (∀ (m : Nat) (h : m < 8), (wrapUpdate j i b w).a[m] =
      if m = 7 then b[7] ^^^ BitVec.ofNat 8 (5 * j + (i.val + 1)) else b[m]) ∧
    (∀ (m : Nat) (h : m < 8), ((wrapUpdate j i b w).r[i])[m] = b[8 + m]) ∧
    ∀ i' : Fin 5, i' ≠ i → (wrapUpdate j i b w).r[i'] = w.r[i']) ∧
  (∀ (enc : Bytes 16 → Bytes 16 → Bytes 16) (kek : Bytes 16) (j : Nat) (i : Fin 5) (w : WrapRegs) (d : Draws Bool),
    d.draw Config.aesFault 0 = false →
    (wrapRounds enc kek [(j, i)] w d).1 = some (wrapUpdate j i (enc kek (w.a ++ w.r[i])) w)) ∧
  ∀ w : WrapRegs, slice (wrapOutput w) 0 8 = w.a ∧ ∀ i : Fin 5, slice (wrapOutput w) (8 + 8 * i.val) 8 = w.r[i]

/-! ### Host duties and premises over a run -/

/-- R82, R86, R131, R135: what each blob event of a step does to BLOB_CT; a step that is none, or a read of BLOB_CT,
leaves it. -/
def Obligations.BlobEventsTellBlobCt : Prop :=
  ∀ s t : State, step s = .next t → match blobEvent s t with
    | some .wrapped => t.blobCt = pureWrap (cipherFn s.cfg.cipher) s.blobPt s.iv s.skek
    | some .swapped => t.blobCt = swapBlob s.blobCt
    | some .cleared => ∀ i : Fin 48, t.blobCt[i] = 0
    | some .read => t.blobCt = s.blobCt
    | none => t.blobCt = s.blobCt

/-- R82, R86, R135: a run that keeps the duty of the one swap and ends with a swapped wrap leaves in BLOB_CT the
swapped wrap of the operands of one of its KWRAPs. What counts as the duty of a run is the model's reading (log
27). -/
def Obligations.SwappedOnceLeavesTheSwappedWrap : Prop :=
  ∀ (n : Nat) (s t : State), core.run n s = .next t →
    BlobStand.after .noWrap (blobEvents n s) = some .swapped →
    ∃ m < n, ∃ u, core.run m s = .next u ∧ performing u = some .kwrap ∧
      t.blobCt = swapBlob (pureWrap (cipherFn u.cfg.cipher) u.blobPt u.iv u.skek)

/-- R131, R138: a run from a core whose registers have their reset values meets premise (b), whatever the program
does: every operand word that a command reads then was written by the program or has its reset value. That a command's
result counts as written is the model's reading (log 26). -/
def Obligations.FromResetMeetsOperandPremise : Prop :=
  ∀ (n : Nat) (s : State), FromReset s → OperandsKnown n s

/-- R138: in a run that meets premise (c), every DATA_IN byte that a command reads has been written, so that no
command computes on a draw of an unwritten byte. That (c) is said of a run, word by word, and that a reset takes the
written words away, is the model's reading (log 26). -/
def Obligations.WrittenInputIsStored : Prop :=
  ∀ (n m : Nat) (s u : State) (i : Instr), DataInWrittenByProgram n s → m < n →
    core.run m s = .next u → performing u = some i →
    (i = .crc32 → u.len.toNat ≤ u.cfg.dataCap → DataInWritten u u.len.toNat) ∧
    (i = .ctrCrypt → ctrLengthOk u.cfg u.len = true → DataInWritten u u.len.toNat)
end

