-- ==== Sys2Proof/Laws/Bytes.lean ====
section
/-! SUPPORT. Byte sequences: what each function gives byte by byte. -/

namespace Sys2Proof.Machine

theorem slice_getElem {n : Nat} (b : Bytes n) (i len k : Nat) (hk : k < len) (h : i + k < n) :
    (slice b i len)[k] = b[i + k] := by simp [slice, h]

@[simp] theorem xorBytes_getElem {n : Nat} (a b : Bytes n) (i : Nat) (h : i < n) :
    (xorBytes a b)[i] = a[i] ^^^ b[i] := by simp [xorBytes]

theorem xorBytes_xorBytes {n : Nat} (a b : Bytes n) : xorBytes (xorBytes a b) b = a := by
  ext i h : 1
  simp

@[simp] theorem zeroBytes_getElem (n i : Nat) (h : i < n) : (zeroBytes n)[i] = 0#8 := by simp [zeroBytes]

/-- Byte i of LE32(v) is bits [8i+7 : 8i]. -/
theorem le32_getElem (v : Word) (i : Nat) (h : i < 4) : (le32 v)[i] = v.extractLsb' (8 * i) 8 := by
  match i, h with
  | 0, _ => rfl
  | 1, _ => rfl
  | 2, _ => rfl
  | 3, _ => rfl

/-- Byte i of BE32(v) is bits [31-8i : 24-8i]. -/
theorem be32_getElem (v : Word) (i : Nat) (h : i < 4) : (be32 v)[i] = v.extractLsb' (24 - 8 * i) 8 := by
  match i, h with
  | 0, _ => rfl
  | 1, _ => rfl
  | 2, _ => rfl
  | 3, _ => rfl

/-- Bit i of fromLE32(b) is bit i mod 8 of byte i / 8. -/
theorem fromLE32_getLsbD (b : Bytes 4) (i : Nat) (h : i < 32) :
    (fromLE32 b).getLsbD i = (b[i / 8]'(by omega)).getLsbD (i % 8) := by
  simp only [fromLE32, BitVec.getLsbD_append]
  have : i / 8 = 0 ∨ i / 8 = 1 ∨ i / 8 = 2 ∨ i / 8 = 3 := by omega
  rcases this with hq | hq | hq | hq
  · simp only [hq]; rw [if_pos (by omega)]; congr 1; omega
  · simp only [hq]; rw [if_neg (by omega), if_pos (by omega)]; congr 1; omega
  · simp only [hq]; rw [if_neg (by omega), if_neg (by omega), if_pos (by omega)]; congr 1; omega
  · simp only [hq]; rw [if_neg (by omega), if_neg (by omega), if_neg (by omega)]; congr 1; omega

@[simp] theorem fromLE32_le32 (v : Word) : fromLE32 (le32 v) = v := by
  apply BitVec.eq_of_getLsbD_eq
  intro i h
  rw [fromLE32_getLsbD _ _ h, le32_getElem, BitVec.getLsbD_extractLsb']
  have : 8 * (i / 8) + i % 8 = i := by omega
  simp [this, Nat.mod_lt]

@[simp] theorem le32_fromLE32 (b : Bytes 4) : le32 (fromLE32 b) = b := by
  ext i h : 1
  apply BitVec.eq_of_getLsbD_eq
  intro k hk
  rw [le32_getElem, BitVec.getLsbD_extractLsb', fromLE32_getLsbD _ _ (by omega)]
  have h1 : (8 * i + k) / 8 = i := by omega
  have h2 : (8 * i + k) % 8 = k := by omega
  simp [h1, h2, hk]

theorem setWordAt_getElem {n : Nat} (b : Bytes n) (k : Nat) (w : Word) (i : Nat) (h : i < n) :
    (setWordAt b k w)[i] =
      if i / 4 = k then (le32 w)[i % 4]'(Nat.mod_lt _ (by decide)) else b[i] := by simp [setWordAt]

/-- A word written is the word read. -/
theorem wordAt_setWordAt_same {n : Nat} (b : Bytes n) (k : Nat) (w : Word) (h : 4 * k + 4 ≤ n) :
    wordAt (setWordAt b k w) k = w := by
  have : slice (setWordAt b k w) (4 * k) 4 = le32 w := by
    ext i hi : 1
    rw [slice_getElem _ _ _ _ hi (by omega), setWordAt_getElem, if_pos (by omega)]
    congr 1
    omega
  rw [wordAt, this, fromLE32_le32]

/-- A word written leaves the other words alone. -/
theorem wordAt_setWordAt_other {n : Nat} (b : Bytes n) (k j : Nat) (w : Word) (h : j ≠ k) :
    wordAt (setWordAt b k w) j = wordAt b j := by
  have : slice (setWordAt b k w) (4 * j) 4 = slice b (4 * j) 4 := by
    ext i hi : 1
    simp only [slice, Vector.getElem_ofFn]
    by_cases hn : 4 * j + i < n
    · simp [hn, setWordAt, show ¬ (4 * j + i) / 4 = k by omega]
    · simp [hn]
  rw [wordAt, this, wordAt]

/-- Concatenating the two halves of a block gives it back. -/
theorem msb64_append_lsb64 (b : Bytes 16) : msb64 b ++ lsb64 b = b := by
  ext i h : 1
  rw [Vector.getElem_append]
  split
  · rw [msb64, slice_getElem _ _ _ _ (by omega) (by omega)]; congr 1; omega
  · rw [lsb64, slice_getElem _ _ _ _ (by omega) (by omega)]; congr 1; omega

theorem msb64_append (a b : Bytes 8) : msb64 (a ++ b) = a := by
  ext i h : 1
  rw [msb64, slice_getElem _ _ _ _ h (by omega), Vector.getElem_append, dif_pos (by omega)]
  congr 1
  omega

theorem lsb64_append (a b : Bytes 8) : lsb64 (a ++ b) = b := by
  ext i h : 1
  rw [lsb64, slice_getElem _ _ _ _ h (by omega), Vector.getElem_append, dif_neg (by omega)]
  congr 1
  omega

/-- A slice of a concatenation that lies in its first part. -/
theorem slice_append_left {n m : Nat} (a : Bytes n) (b : Bytes m) (i len : Nat) (h : i + len ≤ n) :
    slice (a ++ b) i len = slice a i len := by
  ext k hk : 1
  rw [slice_getElem _ _ _ _ hk (by omega), slice_getElem _ _ _ _ hk (by omega), Vector.getElem_append,
    dif_pos (by omega)]

/-- A slice of a concatenation that lies in its second part. -/
theorem slice_append_right {n m : Nat} (a : Bytes n) (b : Bytes m) (i len : Nat) (h : n ≤ i)
    (h' : i + len ≤ n + m) :
    slice (a ++ b) i len = slice b (i - n) len := by
  ext k hk : 1
  rw [slice_getElem _ _ _ _ hk (by omega), slice_getElem _ _ _ _ hk (by omega), Vector.getElem_append,
    dif_neg (by omega)]
  congr 1
  omega

/-- The slice of everything. -/
theorem slice_whole {n : Nat} (b : Bytes n) : slice b 0 n = b := by
  ext k hk : 1
  rw [slice_getElem _ _ _ _ hk (by omega)]
  congr 1
  omega

/-- Bits [8j+7 : 8j] of fromLE32(b) are byte j. -/
theorem fromLE32_byte (b : Bytes 4) (j : Nat) (h : j < 4) :
    (fromLE32 b).extractLsb' (8 * j) 8 = b[j] := by
  have := le32_getElem (fromLE32 b) j h
  rw [← this]; simp

/-- Bits [8j+7 : 8j] of word k are byte 4k + j (R50). -/
theorem wordAt_byte {n : Nat} (b : Bytes n) (k j : Nat) (h : j < 4) (x : Byte)
    (hx : b[4 * k + j]? = some x) : (wordAt b k).extractLsb' (8 * j) 8 = x := by
  rw [wordAt, fromLE32_byte _ _ h]
  simp [slice, hx]

/-- Byte i after a write of word k (R50). -/
theorem setWordAt_byte {n : Nat} (b : Bytes n) (k : Nat) (w : Word) (i : Nat) (x : Byte)
    (hx : b[i]? = some x) :
    (setWordAt b k w)[i]? =
      some (if i / 4 = k then w.extractLsb' (8 * (i % 4)) 8 else x) := by
  rw [Vector.getElem?_eq_some_iff] at hx ⊢
  obtain ⟨h, hx⟩ := hx
  refine ⟨h, ?_⟩
  rw [setWordAt_getElem]
  split
  · rw [le32_getElem]
  · exact hx

end Sys2Proof.Machine
end

