-- ==== Sys2Proof/Laws/Draws.lean ====
section
/-! SUPPORT. Draws. -/

namespace Sys2Proof.Machine

/-- The k-th draw after one is the (k+1)-th before it. -/
@[simp] theorem Draws.draw_advance {α : Type} (free : Nat → α) (d : Draws α) (k : Nat) :
    d.advance.draw free k = d.draw free (k + 1) := by
  simp only [Draws.draw, Draws.advance, List.getElem?_drop]
  rw [Nat.add_comm 1 k, Nat.add_assoc, Nat.add_comm 1 k]

/-- The draws after n of them. -/
theorem Draws.advance_mk {α : Type} (d : Draws α) (n : Nat) :
    (Draws.mk (d.script.drop n) (d.used + n)).advance = Draws.mk (d.script.drop (n + 1)) (d.used + (n + 1)) := by
  simp [Draws.advance, List.drop_drop, Nat.add_assoc]

theorem Draws.draw_mk {α : Type} (free : Nat → α) (d : Draws α) (n k : Nat) :
    (Draws.mk (d.script.drop n) (d.used + n)).draw free k = d.draw free (n + k) := by
  simp [Draws.draw, Nat.add_assoc]

/-- A scripted draw is the script's. -/
theorem Draws.draw_scripted {α : Type} (free : Nat → α) (d : Draws α) (k : Nat) (h : k < d.script.length) :
    d.draw free k = d.script[k] := by simp [Draws.draw, h]

end Sys2Proof.Machine
end

