-- ==== Sys2Proof/Laws/Memory.lean ====
section
/-! SUPPORT. Memory: a read after a write, and that every memory operation keeps the canonical form. -/

namespace Sys2Proof.Machine

@[simp] theorem Memory.read_nil (a : Nat) : Memory.read [] a = none := rfl

theorem Memory.read_cons (c : Host.Cell) (m : Memory) (a : Nat) :
    Memory.read (c :: m) a = if a = c.1 then some c.2 else Memory.read m a := rfl

/-- No entry of a memory whose offsets all exceed `a` is read at `a`. -/
theorem Memory.read_none_of_lt (m : Memory) (a : Nat) (h : ∀ c ∈ m, a < c.1) : Memory.read m a = none := by
  induction m with
  | nil => rfl
  | cons c m ih =>
    have hc := h c (by simp)
    rw [Memory.read_cons, if_neg (by omega), ih fun d hd => h d (by simp [hd])]

/-- A read after a write: the written byte at its offset, what was there before elsewhere. -/
theorem Memory.read_write (m : Memory) (a b : Nat) (v : Byte) :
    Memory.read (Memory.write m a v) b = if b = a then some v else Memory.read m b := by
  induction m with
  | nil => simp [Memory.write, Memory.read]
  | cons c m ih =>
    obtain ⟨x, y⟩ := c
    simp only [Memory.write]
    split
    · simp [Memory.read_cons]
    · split
      · subst x
        by_cases hb : b = a <;> simp [Memory.read_cons, hb]
      · rename_i h1 h2
        simp only [Memory.read_cons, ih]
        by_cases hb : b = x
        · subst hb
          simp [show ¬ b = a from fun h => h2 h.symm]
        · simp [hb]

@[simp] theorem Memory.read_write_same (m : Memory) (a : Nat) (v : Byte) :
    Memory.read (Memory.write m a v) a = some v := by simp [Memory.read_write]

theorem Memory.read_write_other (m : Memory) {a b : Nat} (v : Byte) (h : b ≠ a) :
    Memory.read (Memory.write m a v) b = Memory.read m b := by simp [Memory.read_write, h]

/-- The entries after a write are the old ones and the written one. -/
theorem Memory.mem_write (m : Memory) (a : Nat) (v : Byte) (c : Host.Cell) (h : c ∈ Memory.write m a v) :
    c = (a, v) ∨ c ∈ m := by
  induction m with
  | nil => simpa [Memory.write] using h
  | cons d m ih =>
    obtain ⟨x, y⟩ := d
    simp only [Memory.write] at h
    split at h
    · simpa using h
    · split at h
      · simp only [List.mem_cons] at h ⊢
        tauto
      · simp only [List.mem_cons] at h ⊢
        tauto

/-- A write keeps the canonical form. -/
theorem Memory.write_wf (m : Memory) (a : Nat) (v : Byte) (h : Memory.wf m) : Memory.wf (Memory.write m a v) := by
  induction m with
  | nil => simp [Memory.write, Memory.wf]
  | cons d m ih =>
    obtain ⟨x, y⟩ := d
    obtain ⟨h1, h2⟩ := List.pairwise_cons.mp h
    simp only [Memory.write]
    split
    · rename_i hlt
      refine List.pairwise_cons.mpr ⟨fun c hc => ?_, h⟩
      rcases List.mem_cons.mp hc with rfl | hc
      · exact hlt
      · exact Nat.lt_trans hlt (h1 c hc)
    · split
      · rename_i heq
        subst heq
        exact List.pairwise_cons.mpr ⟨h1, h2⟩
      · rename_i hnlt hne
        refine List.pairwise_cons.mpr ⟨fun c hc => ?_, ih h2⟩
        rcases Memory.mem_write m a v c hc with rfl | hc
        · show x < a
          omega
        · exact h1 c hc

@[simp] theorem Memory.writeBytes_nil (m : Memory) (a : Nat) : Memory.writeBytes m a [] = m := rfl

theorem Memory.writeBytes_cons (m : Memory) (a : Nat) (b : Byte) (bs : List Byte) :
    Memory.writeBytes m a (b :: bs) = Memory.writeBytes (Memory.write m a b) (a + 1) bs := rfl

/-- Reads outside the written bytes are as before. -/
theorem Memory.read_writeBytes_outside (bs : List Byte) (m : Memory) (a b : Nat)
    (h : b < a ∨ a + bs.length ≤ b) : Memory.read (Memory.writeBytes m a bs) b = Memory.read m b := by
  induction bs generalizing m a with
  | nil => rfl
  | cons v bs ih =>
    simp only [List.length_cons] at h
    rw [Memory.writeBytes_cons, ih _ _ (by omega), Memory.read_write_other _ _ (by omega)]

/-- Reads inside the written bytes give them. -/
theorem Memory.read_writeBytes_inside (bs : List Byte) (m : Memory) (a k : Nat) (h : k < bs.length) :
    Memory.read (Memory.writeBytes m a bs) (a + k) = some bs[k] := by
  induction bs generalizing m a k with
  | nil => exact absurd h (Nat.not_lt_zero k)
  | cons v bs ih =>
    rw [Memory.writeBytes_cons]
    cases k with
    | zero => rw [Nat.add_zero, Memory.read_writeBytes_outside _ _ _ _ (by omega)]; simp
    | succ k =>
      rw [show a + (k + 1) = a + 1 + k by omega, ih _ _ k (by simpa using h)]
      rfl

/-- Bulk writes keep the canonical form. -/
theorem Memory.writeBytes_wf (bs : List Byte) (m : Memory) (a : Nat) (h : Memory.wf m) :
    Memory.wf (Memory.writeBytes m a bs) := by
  induction bs generalizing m a with
  | nil => exact h
  | cons v bs ih => exact ih _ _ (Memory.write_wf m a v h)

/-- The offsets after a bulk write are the old ones and the written ones. -/
theorem Memory.mem_writeBytes (bs : List Byte) (m : Memory) (a : Nat) (c : Host.Cell)
    (h : c ∈ Memory.writeBytes m a bs) : (a ≤ c.1 ∧ c.1 < a + bs.length) ∨ c ∈ m := by
  induction bs generalizing m a with
  | nil => exact .inr h
  | cons v bs ih =>
    simp only [List.length_cons]
    rcases ih _ _ h with h | h
    · omega
    · rcases Memory.mem_write m a v c h with rfl | h
      · exact .inl ⟨Nat.le_refl _, by show a < _; omega⟩
      · exact .inr h

theorem State.memWrite_wf (s : State) (base off : Nat) (v : List Byte) (h : s.mem.wf) :
    (s.memWrite base off v).mem.wf := Memory.writeBytes_wf v s.mem (base + off) h

theorem reset_mem_wf : State.reset.mem.wf := List.Pairwise.nil

/-! ### The buffer byte -/

/-- A buffer byte after a bulk write. -/
theorem State.bufByte_memWrite_outside (s : State) (base off : Nat) (v : List Byte) (a : Nat)
    (h : a < base + off ∨ base + off + v.length ≤ a) : (s.memWrite base off v).bufByte a = s.bufByte a := by
  simp [State.bufByte, State.memWrite, Memory.read_writeBytes_outside _ _ _ _ h]

theorem State.bufByte_memWrite_inside (s : State) (base off : Nat) (v : List Byte) (k : Nat) (h : k < v.length) :
    (s.memWrite base off v).bufByte (base + off + k) = v[k] := by
  simp [State.bufByte, State.memWrite, Memory.read_writeBytes_inside _ _ _ _ h]

/-- A buffer byte depends only on memory and on the number of resets. -/
theorem State.bufByte_congr {s t : State} (hm : t.mem = s.mem) (hr : t.resets = s.resets) (a : Nat) :
    t.bufByte a = s.bufByte a := by simp [State.bufByte, hm, hr]

end Sys2Proof.Machine
end

