-- ==== Sys2Proof/Laws/Commands.lean ====
section
/-! SUPPORT. The functions the commands are made of. -/

namespace Sys2Proof.Machine

theorem aes_ok (enc : Bytes 16 → Bytes 16 → Bytes 16) (key block : Bytes 16) (d : Draws Bool)
    (h : d.draw Config.aesFault 0 = false) : aes enc key block d = (some (enc key block), d.advance) := by
  simp [aes, h]

theorem aes_fail (enc : Bytes 16 → Bytes 16 → Bytes 16) (key block : Bytes 16) (d : Draws Bool)
    (h : d.draw Config.aesFault 0 = true) : aes enc key block d = (none, d.advance) := by simp [aes, h]

/-! ### CRC -/

theorem crc32_nil (t : CrcTable) : crc32 t [] = 0xFFFFFFFF := rfl

theorem memRead_length (s : State) (base off n : Nat) : (s.memRead base off n).length = n := by
  simp [State.memRead]

/-! ### The wrap -/

/-- Rounds none of whose cipher invocations fails: the fold of the round, and one draw used per round. -/
theorem wrapRounds_ok (enc : Bytes 16 → Bytes 16 → Bytes 16) (kek : Bytes 16) (rs : List (Nat × Fin 5))
    (w : WrapRegs) (d : Draws Bool) (h : ∀ k < rs.length, d.draw Config.aesFault k = false) :
    wrapRounds enc kek rs w d =
      (some (rs.foldl (fun w p => wrapUpdate p.1 p.2 (enc kek (w.a ++ w.r[p.2])) w) w),
        ⟨d.script.drop rs.length, d.used + rs.length⟩) := by
  induction rs generalizing w d with
  | nil => simp [wrapRounds]
  | cons p rs ih =>
    obtain ⟨j, i⟩ := p
    rw [wrapRounds, aes_ok _ _ _ _ (h 0 (by simp))]
    simp only
    rw [ih _ _ fun k hk => by rw [Draws.draw_advance]; exact h (k + 1) (by simpa using hk)]
    simp [Draws.advance, Nat.add_comm 1, Nat.add_assoc]

/-- Rounds whose k-th cipher invocation is the first to fail give none, and use k + 1 draws. -/
theorem wrapRounds_fail (enc : Bytes 16 → Bytes 16 → Bytes 16) (kek : Bytes 16) (rs : List (Nat × Fin 5))
    (w : WrapRegs) (d : Draws Bool) (k : Nat) (hk : k < rs.length)
    (h : ∀ j < k, d.draw Config.aesFault j = false) (hf : d.draw Config.aesFault k = true) :
    wrapRounds enc kek rs w d = (none, ⟨d.script.drop (k + 1), d.used + (k + 1)⟩) := by
  induction rs generalizing w d k with
  | nil => exact absurd hk (Nat.not_lt_zero k)
  | cons p rs ih =>
    obtain ⟨j, i⟩ := p
    rw [wrapRounds]
    cases k with
    | zero => rw [aes_fail _ _ _ _ hf]; rfl
    | succ k =>
      rw [aes_ok _ _ _ _ (h 0 (by omega))]
      simp only
      rw [ih _ _ k (by simpa using hk) (fun j hj => by rw [Draws.draw_advance]; exact h (j + 1) (by omega))
        (by rw [Draws.draw_advance]; exact hf)]
      simp [Draws.advance, Nat.add_comm, Nat.add_left_comm]

theorem roundOrder_length : roundOrder.length = 30 := by decide

/-- Byte i of a sub-word with its bytes reversed (R84). -/
theorem reversedSubWord_getElem (b : Bytes 16) (m : Fin 4) (i : Nat) (h : i < 4) :
    (reversedSubWord b m)[i] = b[4 * m.val + (3 - i)]'(by omega) := by
  match i, h with
  | 0, _ => rfl
  | 1, _ => rfl
  | 2, _ => rfl
  | 3, _ => rfl

/-! ### The counter -/

/-- The effective counter depends on bytes 0..11 only. -/
theorem effective_congr {c c' : Bytes 16} (h : slice c 0 12 = slice c' 0 12) (a : Word) :
    effective c a = effective c' a := by simp [effective, h]

theorem slice_effective_head (c : Bytes 16) (a : Word) : slice (effective c a) 0 12 = slice c 0 12 := by
  ext i h : 1
  rw [slice_getElem _ _ _ _ h (by omega), effective, Vector.getElem_append, dif_pos (by omega)]
  congr 1
  omega

theorem slice_effective_addr (c : Bytes 16) (a : Word) : slice (effective c a) 12 4 = be32 a := by
  ext i h : 1
  rw [slice_getElem _ _ _ _ h (by omega), effective, Vector.getElem_append, dif_neg (by omega)]
  congr 1
  omega

/-- Overwriting the address twice is overwriting it once. -/
theorem effective_effective (c : Bytes 16) (a b : Word) : effective (effective c a) b = effective c b :=
  effective_congr (slice_effective_head c a) b

/-- The block loop when no invocation fails: each block XORed with its own keystream, the counter at the last
block's address, one draw used per block. -/
theorem ctrBlocks_ok (enc : Bytes 16 → Bytes 16 → Bytes 16) (key : Bytes 16) (base : Word) (k : Nat)
    (ps : List (Bytes 16)) (c : Bytes 16) (d : Draws Bool)
    (h : ∀ j < ps.length, d.draw Config.aesFault j = false) :
    ctrBlocks enc key base k ps c d =
      ⟨some (ps.mapIdx fun j p => xorBytes p (wswap (enc key (effective c (blockAddr base (k + j)))))),
        if ps.length = 0 then c else effective c (blockAddr base (k + (ps.length - 1))),
        ⟨d.script.drop ps.length, d.used + ps.length⟩⟩ := by
  induction ps generalizing k c d with
  | nil => simp [ctrBlocks]
  | cons p ps ih =>
    rw [ctrBlocks]
    simp only
    rw [aes_ok _ _ _ _ (h 0 (by simp))]
    simp only
    rw [ih _ _ _ fun j hj => by rw [Draws.draw_advance]; exact h (j + 1) (by simpa using hj)]
    simp only [Option.map_some, List.mapIdx_cons, effective_effective, List.length_cons, Nat.add_zero,
      Nat.succ_ne_zero, if_false, Nat.add_sub_cancel, CtrRun.mk.injEq, Draws.advance, Draws.mk.injEq,
      List.drop_drop]
    refine ⟨?_, ?_, ?_, by omega⟩
    · simp only [Nat.add_assoc, Nat.add_comm 1]
    · split
      · rename_i h0; simp [h0]
      · congr 2; omega
    · rw [Nat.add_comm]

/-- The block loop when the invocation of its j-th block is the first to fail: no output, and the counter at that
block's address. -/
theorem ctrBlocks_fail (enc : Bytes 16 → Bytes 16 → Bytes 16) (key : Bytes 16) (base : Word) (k : Nat)
    (ps : List (Bytes 16)) (c : Bytes 16) (d : Draws Bool) (j : Nat) (hj : j < ps.length)
    (h : ∀ i < j, d.draw Config.aesFault i = false) (hf : d.draw Config.aesFault j = true) :
    ctrBlocks enc key base k ps c d =
      ⟨none, effective c (blockAddr base (k + j)), ⟨d.script.drop (j + 1), d.used + (j + 1)⟩⟩ := by
  induction ps generalizing k c d j with
  | nil => exact absurd hj (Nat.not_lt_zero j)
  | cons p ps ih =>
    rw [ctrBlocks]
    simp only
    cases j with
    | zero => rw [aes_fail _ _ _ _ hf]; rfl
    | succ j =>
      rw [aes_ok _ _ _ _ (h 0 (by omega))]
      simp only
      rw [ih _ _ _ j (by simpa using hj) (fun i hi => by rw [Draws.draw_advance]; exact h (i + 1) (by omega))
        (by rw [Draws.draw_advance]; exact hf)]
      simp only [Option.map_none, effective_effective, CtrRun.mk.injEq, Draws.advance, Draws.mk.injEq,
        List.drop_drop, true_and]
      refine ⟨by congr 2; omega, by rw [Nat.add_comm], by omega⟩

/-- A run over blocks ends in one of those two ways. -/
theorem draws_ok_or_first_failure (d : Draws Bool) (n : Nat) :
    (∀ j < n, d.draw Config.aesFault j = false) ∨
    ∃ k < n, (∀ j < k, d.draw Config.aesFault j = false) ∧ d.draw Config.aesFault k = true := by
  induction n with
  | zero => exact .inl fun j hj => absurd hj (Nat.not_lt_zero j)
  | succ n ih =>
    rcases ih with h | ⟨k, hk, h⟩
    · cases hn : d.draw Config.aesFault n with
      | false =>
        refine .inl fun j hj => ?_
        rcases Nat.lt_succ_iff_lt_or_eq.mp hj with hj | rfl
        · exact h j hj
        · exact hn
      | true => exact .inr ⟨n, Nat.lt_succ_self n, h, hn⟩
    · exact .inr ⟨k, Nat.lt_succ_of_lt hk, h⟩

theorem inBlocks_length (s : State) (n : Nat) : (s.inBlocks n).length = n := by simp [State.inBlocks]

/-- The bytes of n blocks, one after another. -/
theorem flatMap_toList_length (l : List (Bytes 16)) : (l.flatMap Vector.toList).length = 16 * l.length := by
  induction l with
  | nil => rfl
  | cons p l ih => simp [ih]; omega

theorem flatMap_toList_getElem (l : List (Bytes 16)) (k i : Nat) (hk : k < l.length) (hi : i < 16) :
    (l.flatMap Vector.toList)[16 * k + i]'(by rw [flatMap_toList_length]; omega) = l[k][i] := by
  induction l generalizing k with
  | nil => exact absurd hk (Nat.not_lt_zero k)
  | cons p l ih =>
    simp only [List.flatMap_cons]
    cases k with
    | zero =>
      rw [List.getElem_append_left (by simp; omega)]
      simp
    | succ k =>
      rw [List.getElem_append_right (by simp; omega)]
      simp only [List.getElem_cons_succ, Vector.length_toList]
      rw [← ih k (by simpa using hk)]
      congr 1
      omega

end Sys2Proof.Machine
end

