-- ==== Sys2Proof/Laws/Decode.lean ====
section
/-! SUPPORT. Decoding: the word is its two fields, and what each value of OP decodes to. -/

namespace Sys2Proof

/-- A command word is RSVD and OP. -/
theorem word_eq_fields (w : Word) : rsvdField w ++ opField w = w := by
  apply BitVec.eq_of_getLsbD_eq
  intro i hi
  rw [BitVec.getLsbD_append]
  simp only [rsvdField, opField, BitVec.getLsbD_extractLsb]
  split
  · rename_i h
    simp [h]
  · rename_i h
    have h1 : i - 4 < 28 := by omega
    have h2 : 4 + (i - 4) = i := by omega
    simp [h1, h2]

/-- The values of a 4-bit field. -/
theorem op_cases (op : BitVec 4) :
    op = 0 ∨ op = 1 ∨ op = 2 ∨ op = 3 ∨ op = 4 ∨ op = 5 ∨ op = 6 ∨ op = 7 ∨ 8 ≤ op.toNat := by
  revert op
  decide

/-- OP decodes to the command whose code it is, or to nothing. -/
theorem decodeOp_cases (op : BitVec 4) :
    (∃ i, decodeOp op = .ok i ∧ opCode i = op) ∨
    (decodeOp op = .error .unassignedOp ∧ (op.toNat = 0 ∨ 8 ≤ op.toNat)) := by
  rcases op_cases op with rfl | rfl | rfl | rfl | rfl | rfl | rfl | rfl | h
  · exact .inr ⟨rfl, .inl rfl⟩
  · exact .inl ⟨.crc32, rfl, rfl⟩
  · exact .inl ⟨.scramble, rfl, rfl⟩
  · exact .inl ⟨.buildBlob, rfl, rfl⟩
  · exact .inl ⟨.kwrap, rfl, rfl⟩
  · exact .inl ⟨.blobSwap, rfl, rfl⟩
  · exact .inl ⟨.extCtr, rfl, rfl⟩
  · exact .inl ⟨.ctrCrypt, rfl, rfl⟩
  · refine .inr ⟨?_, .inr h⟩
    unfold decodeOp
    split <;> first | omega | rfl

/-- The code of a command is one of 0x1 to 0x7. -/
theorem opCode_range (i : Instr) : 1 ≤ (opCode i).toNat ∧ (opCode i).toNat < 8 := by
  cases i <;> decide

/-- A word whose reserved bits are not 0 decodes to nothing, whatever OP holds (R63). -/
theorem decode_of_reserved {w : Word} (h : rsvdField w ≠ 0) : decode w = .error .reservedBits :=
  if_pos h

theorem decode_of_clear {w : Word} (h : rsvdField w = 0) : decode w = decodeOp (opField w) :=
  if_neg (not_not_intro h)

end Sys2Proof
end

