-- ==== Sys2Proof/Laws/PerInstr.lean ====
section
/-! SUPPORT. Statements about every command as syntax, one lemma per constructor. -/

namespace Sys2Proof.Laws.LegalWord

/-- The word of a command is a legal command word: RSVD is 0 and OP is assigned (R64, R65). -/
def Statement (i : Instr) : Prop := i.wf = true ∧ WellFormed.commandWord (encode i) = true

theorem crc32 : Statement .crc32 := ⟨rfl, by decide⟩
theorem scramble : Statement .scramble := ⟨rfl, by decide⟩
theorem buildBlob : Statement .buildBlob := ⟨rfl, by decide⟩
theorem kwrap : Statement .kwrap := ⟨rfl, by decide⟩
theorem blobSwap : Statement .blobSwap := ⟨rfl, by decide⟩
theorem extCtr : Statement .extCtr := ⟨rfl, by decide⟩
theorem ctrCrypt : Statement .ctrCrypt := ⟨rfl, by decide⟩

end Sys2Proof.Laws.LegalWord
end

