-- ==== Sys2Proof/Laws/State.lean ====
section
/-! SUPPORT. One lemma per field per shared update of State, each true by rfl, so that no proof unfolds a
record update. -/

namespace Sys2Proof.Machine

/-! ### accept -/

@[simp] theorem accept_pending (w : Word) (s : State) : (accept w s).pending = some w := rfl
@[simp] theorem accept_done (w : Word) (s : State) : (accept w s).done = false := rfl
@[simp] theorem accept_ovr (w : Word) (s : State) : (accept w s).ovr = s.ovr := rfl
@[simp] theorem accept_err (w : Word) (s : State) : (accept w s).err = none := rfl
@[simp] theorem accept_len (w : Word) (s : State) : (accept w s).len = s.len := rfl
@[simp] theorem accept_ctxSel (w : Word) (s : State) : (accept w s).ctxSel = s.ctxSel := rfl
@[simp] theorem accept_align (w : Word) (s : State) : (accept w s).align = s.align := rfl
@[simp] theorem accept_scr (w : Word) (s : State) : (accept w s).scr = s.scr := rfl
@[simp] theorem accept_startAddr (w : Word) (s : State) : (accept w s).startAddr = s.startAddr := rfl
@[simp] theorem accept_endAddr (w : Word) (s : State) : (accept w s).endAddr = s.endAddr := rfl
@[simp] theorem accept_endFlags (w : Word) (s : State) : (accept w s).endFlags = s.endFlags := rfl
@[simp] theorem accept_baseAddr (w : Word) (s : State) : (accept w s).baseAddr = s.baseAddr := rfl
@[simp] theorem accept_crcResult (w : Word) (s : State) : (accept w s).crcResult = s.crcResult := rfl
@[simp] theorem accept_kek (w : Word) (s : State) : (accept w s).kek = s.kek := rfl
@[simp] theorem accept_skek (w : Word) (s : State) : (accept w s).skek = s.skek := rfl
@[simp] theorem accept_imgKey (w : Word) (s : State) : (accept w s).imgKey = s.imgKey := rfl
@[simp] theorem accept_ctr8 (w : Word) (s : State) : (accept w s).ctr8 = s.ctr8 := rfl
@[simp] theorem accept_iv (w : Word) (s : State) : (accept w s).iv = s.iv := rfl
@[simp] theorem accept_ctr16 (w : Word) (s : State) : (accept w s).ctr16 = s.ctr16 := rfl
@[simp] theorem accept_blobPt (w : Word) (s : State) : (accept w s).blobPt = s.blobPt := rfl
@[simp] theorem accept_blobCt (w : Word) (s : State) : (accept w s).blobCt = s.blobCt := rfl
@[simp] theorem accept_mem (w : Word) (s : State) : (accept w s).mem = s.mem := rfl
@[simp] theorem accept_cfg (w : Word) (s : State) : (accept w s).cfg = s.cfg := rfl
@[simp] theorem accept_program (w : Word) (s : State) : (accept w s).program = s.program := rfl
@[simp] theorem accept_hostPc (w : Word) (s : State) : (accept w s).hostPc = s.hostPc := rfl
@[simp] theorem accept_trace (w : Word) (s : State) : (accept w s).trace = s.trace := rfl
@[simp] theorem accept_delay (w : Word) (s : State) : (accept w s).delay = s.delays.draw Config.engineDelay 0 := rfl
@[simp] theorem accept_delays (w : Word) (s : State) : (accept w s).delays = s.delays.advance := rfl
@[simp] theorem accept_aesDraws (w : Word) (s : State) : (accept w s).aesDraws = s.aesDraws := rfl
@[simp] theorem accept_busyReads (w : Word) (s : State) : (accept w s).busyReads = s.busyReads := rfl
@[simp] theorem accept_resets (w : Word) (s : State) : (accept w s).resets = s.resets := rfl
@[simp] theorem accept_resetPin (w : Word) (s : State) : (accept w s).resetPin = s.resetPin := rfl

/-! ### complete -/

@[simp] theorem complete_pending (e : Option CmdError) (s : State) : (complete e s).pending = none := rfl
@[simp] theorem complete_done (e : Option CmdError) (s : State) : (complete e s).done = true := rfl
@[simp] theorem complete_ovr (e : Option CmdError) (s : State) : (complete e s).ovr = s.ovr := rfl
@[simp] theorem complete_err (e : Option CmdError) (s : State) : (complete e s).err = e := rfl
@[simp] theorem complete_len (e : Option CmdError) (s : State) : (complete e s).len = s.len := rfl
@[simp] theorem complete_ctxSel (e : Option CmdError) (s : State) : (complete e s).ctxSel = s.ctxSel := rfl
@[simp] theorem complete_align (e : Option CmdError) (s : State) : (complete e s).align = s.align := rfl
@[simp] theorem complete_scr (e : Option CmdError) (s : State) : (complete e s).scr = s.scr := rfl
@[simp] theorem complete_startAddr (e : Option CmdError) (s : State) : (complete e s).startAddr = s.startAddr := rfl
@[simp] theorem complete_endAddr (e : Option CmdError) (s : State) : (complete e s).endAddr = s.endAddr := rfl
@[simp] theorem complete_endFlags (e : Option CmdError) (s : State) : (complete e s).endFlags = s.endFlags := rfl
@[simp] theorem complete_baseAddr (e : Option CmdError) (s : State) : (complete e s).baseAddr = s.baseAddr := rfl
@[simp] theorem complete_crcResult (e : Option CmdError) (s : State) : (complete e s).crcResult = s.crcResult := rfl
@[simp] theorem complete_kek (e : Option CmdError) (s : State) : (complete e s).kek = s.kek := rfl
@[simp] theorem complete_skek (e : Option CmdError) (s : State) : (complete e s).skek = s.skek := rfl
@[simp] theorem complete_imgKey (e : Option CmdError) (s : State) : (complete e s).imgKey = s.imgKey := rfl
@[simp] theorem complete_ctr8 (e : Option CmdError) (s : State) : (complete e s).ctr8 = s.ctr8 := rfl
@[simp] theorem complete_iv (e : Option CmdError) (s : State) : (complete e s).iv = s.iv := rfl
@[simp] theorem complete_ctr16 (e : Option CmdError) (s : State) : (complete e s).ctr16 = s.ctr16 := rfl
@[simp] theorem complete_blobPt (e : Option CmdError) (s : State) : (complete e s).blobPt = s.blobPt := rfl
@[simp] theorem complete_blobCt (e : Option CmdError) (s : State) : (complete e s).blobCt = s.blobCt := rfl
@[simp] theorem complete_mem (e : Option CmdError) (s : State) : (complete e s).mem = s.mem := rfl
@[simp] theorem complete_cfg (e : Option CmdError) (s : State) : (complete e s).cfg = s.cfg := rfl
@[simp] theorem complete_program (e : Option CmdError) (s : State) : (complete e s).program = s.program := rfl
@[simp] theorem complete_hostPc (e : Option CmdError) (s : State) : (complete e s).hostPc = s.hostPc := rfl
@[simp] theorem complete_trace (e : Option CmdError) (s : State) : (complete e s).trace = s.trace := rfl
@[simp] theorem complete_delay (e : Option CmdError) (s : State) : (complete e s).delay = s.delay := rfl
@[simp] theorem complete_delays (e : Option CmdError) (s : State) : (complete e s).delays = s.delays := rfl
@[simp] theorem complete_aesDraws (e : Option CmdError) (s : State) : (complete e s).aesDraws = s.aesDraws := rfl
@[simp] theorem complete_busyReads (e : Option CmdError) (s : State) : (complete e s).busyReads = s.busyReads := rfl
@[simp] theorem complete_resets (e : Option CmdError) (s : State) : (complete e s).resets = s.resets := rfl
@[simp] theorem complete_resetPin (e : Option CmdError) (s : State) : (complete e s).resetPin = s.resetPin := rfl

/-! ### clearStatus -/

@[simp] theorem clearStatus_pending (w : Word) (s : State) : (clearStatus w s).pending = s.pending := rfl
@[simp] theorem clearStatus_done (w : Word) (s : State) : (clearStatus w s).done = (s.done && !w.getLsbD 1) := rfl
@[simp] theorem clearStatus_ovr (w : Word) (s : State) : (clearStatus w s).ovr = (s.ovr && !w.getLsbD 2) := rfl
@[simp] theorem clearStatus_err (w : Word) (s : State) : (clearStatus w s).err = s.err := rfl
@[simp] theorem clearStatus_len (w : Word) (s : State) : (clearStatus w s).len = s.len := rfl
@[simp] theorem clearStatus_ctxSel (w : Word) (s : State) : (clearStatus w s).ctxSel = s.ctxSel := rfl
@[simp] theorem clearStatus_align (w : Word) (s : State) : (clearStatus w s).align = s.align := rfl
@[simp] theorem clearStatus_scr (w : Word) (s : State) : (clearStatus w s).scr = s.scr := rfl
@[simp] theorem clearStatus_startAddr (w : Word) (s : State) : (clearStatus w s).startAddr = s.startAddr := rfl
@[simp] theorem clearStatus_endAddr (w : Word) (s : State) : (clearStatus w s).endAddr = s.endAddr := rfl
@[simp] theorem clearStatus_endFlags (w : Word) (s : State) : (clearStatus w s).endFlags = s.endFlags := rfl
@[simp] theorem clearStatus_baseAddr (w : Word) (s : State) : (clearStatus w s).baseAddr = s.baseAddr := rfl
@[simp] theorem clearStatus_crcResult (w : Word) (s : State) : (clearStatus w s).crcResult = s.crcResult := rfl
@[simp] theorem clearStatus_kek (w : Word) (s : State) : (clearStatus w s).kek = s.kek := rfl
@[simp] theorem clearStatus_skek (w : Word) (s : State) : (clearStatus w s).skek = s.skek := rfl
@[simp] theorem clearStatus_imgKey (w : Word) (s : State) : (clearStatus w s).imgKey = s.imgKey := rfl
@[simp] theorem clearStatus_ctr8 (w : Word) (s : State) : (clearStatus w s).ctr8 = s.ctr8 := rfl
@[simp] theorem clearStatus_iv (w : Word) (s : State) : (clearStatus w s).iv = s.iv := rfl
@[simp] theorem clearStatus_ctr16 (w : Word) (s : State) : (clearStatus w s).ctr16 = s.ctr16 := rfl
@[simp] theorem clearStatus_blobPt (w : Word) (s : State) : (clearStatus w s).blobPt = s.blobPt := rfl
@[simp] theorem clearStatus_blobCt (w : Word) (s : State) : (clearStatus w s).blobCt = s.blobCt := rfl
@[simp] theorem clearStatus_mem (w : Word) (s : State) : (clearStatus w s).mem = s.mem := rfl
@[simp] theorem clearStatus_cfg (w : Word) (s : State) : (clearStatus w s).cfg = s.cfg := rfl
@[simp] theorem clearStatus_program (w : Word) (s : State) : (clearStatus w s).program = s.program := rfl
@[simp] theorem clearStatus_hostPc (w : Word) (s : State) : (clearStatus w s).hostPc = s.hostPc := rfl
@[simp] theorem clearStatus_trace (w : Word) (s : State) : (clearStatus w s).trace = s.trace := rfl
@[simp] theorem clearStatus_delay (w : Word) (s : State) : (clearStatus w s).delay = s.delay := rfl
@[simp] theorem clearStatus_delays (w : Word) (s : State) : (clearStatus w s).delays = s.delays := rfl
@[simp] theorem clearStatus_aesDraws (w : Word) (s : State) : (clearStatus w s).aesDraws = s.aesDraws := rfl
@[simp] theorem clearStatus_busyReads (w : Word) (s : State) : (clearStatus w s).busyReads = s.busyReads := rfl
@[simp] theorem clearStatus_resets (w : Word) (s : State) : (clearStatus w s).resets = s.resets := rfl
@[simp] theorem clearStatus_resetPin (w : Word) (s : State) : (clearStatus w s).resetPin = s.resetPin := rfl

/-! ### loseWrite -/

@[simp] theorem loseWrite_pending (s : State) : (loseWrite s).pending = s.pending := rfl
@[simp] theorem loseWrite_done (s : State) : (loseWrite s).done = s.done := rfl
@[simp] theorem loseWrite_ovr (s : State) : (loseWrite s).ovr = true := rfl
@[simp] theorem loseWrite_err (s : State) : (loseWrite s).err = s.err := rfl
@[simp] theorem loseWrite_len (s : State) : (loseWrite s).len = s.len := rfl
@[simp] theorem loseWrite_ctxSel (s : State) : (loseWrite s).ctxSel = s.ctxSel := rfl
@[simp] theorem loseWrite_align (s : State) : (loseWrite s).align = s.align := rfl
@[simp] theorem loseWrite_scr (s : State) : (loseWrite s).scr = s.scr := rfl
@[simp] theorem loseWrite_startAddr (s : State) : (loseWrite s).startAddr = s.startAddr := rfl
@[simp] theorem loseWrite_endAddr (s : State) : (loseWrite s).endAddr = s.endAddr := rfl
@[simp] theorem loseWrite_endFlags (s : State) : (loseWrite s).endFlags = s.endFlags := rfl
@[simp] theorem loseWrite_baseAddr (s : State) : (loseWrite s).baseAddr = s.baseAddr := rfl
@[simp] theorem loseWrite_crcResult (s : State) : (loseWrite s).crcResult = s.crcResult := rfl
@[simp] theorem loseWrite_kek (s : State) : (loseWrite s).kek = s.kek := rfl
@[simp] theorem loseWrite_skek (s : State) : (loseWrite s).skek = s.skek := rfl
@[simp] theorem loseWrite_imgKey (s : State) : (loseWrite s).imgKey = s.imgKey := rfl
@[simp] theorem loseWrite_ctr8 (s : State) : (loseWrite s).ctr8 = s.ctr8 := rfl
@[simp] theorem loseWrite_iv (s : State) : (loseWrite s).iv = s.iv := rfl
@[simp] theorem loseWrite_ctr16 (s : State) : (loseWrite s).ctr16 = s.ctr16 := rfl
@[simp] theorem loseWrite_blobPt (s : State) : (loseWrite s).blobPt = s.blobPt := rfl
@[simp] theorem loseWrite_blobCt (s : State) : (loseWrite s).blobCt = s.blobCt := rfl
@[simp] theorem loseWrite_mem (s : State) : (loseWrite s).mem = s.mem := rfl
@[simp] theorem loseWrite_cfg (s : State) : (loseWrite s).cfg = s.cfg := rfl
@[simp] theorem loseWrite_program (s : State) : (loseWrite s).program = s.program := rfl
@[simp] theorem loseWrite_hostPc (s : State) : (loseWrite s).hostPc = s.hostPc := rfl
@[simp] theorem loseWrite_trace (s : State) : (loseWrite s).trace = s.trace := rfl
@[simp] theorem loseWrite_delay (s : State) : (loseWrite s).delay = s.delay := rfl
@[simp] theorem loseWrite_delays (s : State) : (loseWrite s).delays = s.delays := rfl
@[simp] theorem loseWrite_aesDraws (s : State) : (loseWrite s).aesDraws = s.aesDraws := rfl
@[simp] theorem loseWrite_busyReads (s : State) : (loseWrite s).busyReads = s.busyReads := rfl
@[simp] theorem loseWrite_resets (s : State) : (loseWrite s).resets = s.resets := rfl
@[simp] theorem loseWrite_resetPin (s : State) : (loseWrite s).resetPin = s.resetPin := rfl

/-! ### hostNext -/

@[simp] theorem hostNext_pending (s : State) : (hostNext s).pending = s.pending := rfl
@[simp] theorem hostNext_done (s : State) : (hostNext s).done = s.done := rfl
@[simp] theorem hostNext_ovr (s : State) : (hostNext s).ovr = s.ovr := rfl
@[simp] theorem hostNext_err (s : State) : (hostNext s).err = s.err := rfl
@[simp] theorem hostNext_len (s : State) : (hostNext s).len = s.len := rfl
@[simp] theorem hostNext_ctxSel (s : State) : (hostNext s).ctxSel = s.ctxSel := rfl
@[simp] theorem hostNext_align (s : State) : (hostNext s).align = s.align := rfl
@[simp] theorem hostNext_scr (s : State) : (hostNext s).scr = s.scr := rfl
@[simp] theorem hostNext_startAddr (s : State) : (hostNext s).startAddr = s.startAddr := rfl
@[simp] theorem hostNext_endAddr (s : State) : (hostNext s).endAddr = s.endAddr := rfl
@[simp] theorem hostNext_endFlags (s : State) : (hostNext s).endFlags = s.endFlags := rfl
@[simp] theorem hostNext_baseAddr (s : State) : (hostNext s).baseAddr = s.baseAddr := rfl
@[simp] theorem hostNext_crcResult (s : State) : (hostNext s).crcResult = s.crcResult := rfl
@[simp] theorem hostNext_kek (s : State) : (hostNext s).kek = s.kek := rfl
@[simp] theorem hostNext_skek (s : State) : (hostNext s).skek = s.skek := rfl
@[simp] theorem hostNext_imgKey (s : State) : (hostNext s).imgKey = s.imgKey := rfl
@[simp] theorem hostNext_ctr8 (s : State) : (hostNext s).ctr8 = s.ctr8 := rfl
@[simp] theorem hostNext_iv (s : State) : (hostNext s).iv = s.iv := rfl
@[simp] theorem hostNext_ctr16 (s : State) : (hostNext s).ctr16 = s.ctr16 := rfl
@[simp] theorem hostNext_blobPt (s : State) : (hostNext s).blobPt = s.blobPt := rfl
@[simp] theorem hostNext_blobCt (s : State) : (hostNext s).blobCt = s.blobCt := rfl
@[simp] theorem hostNext_mem (s : State) : (hostNext s).mem = s.mem := rfl
@[simp] theorem hostNext_cfg (s : State) : (hostNext s).cfg = s.cfg := rfl
@[simp] theorem hostNext_program (s : State) : (hostNext s).program = s.program := rfl
@[simp] theorem hostNext_hostPc (s : State) : (hostNext s).hostPc = s.hostPc + 1 := rfl
@[simp] theorem hostNext_trace (s : State) : (hostNext s).trace = s.trace := rfl
@[simp] theorem hostNext_delay (s : State) : (hostNext s).delay = s.delay := rfl
@[simp] theorem hostNext_delays (s : State) : (hostNext s).delays = s.delays := rfl
@[simp] theorem hostNext_aesDraws (s : State) : (hostNext s).aesDraws = s.aesDraws := rfl
@[simp] theorem hostNext_busyReads (s : State) : (hostNext s).busyReads = s.busyReads := rfl
@[simp] theorem hostNext_resets (s : State) : (hostNext s).resets = s.resets := rfl
@[simp] theorem hostNext_resetPin (s : State) : (hostNext s).resetPin = s.resetPin := rfl

/-! ### memWrite -/

@[simp] theorem memWrite_pending (s : State) (base off : Nat) (v : List Byte) : (s.memWrite base off v).pending = s.pending := rfl
@[simp] theorem memWrite_done (s : State) (base off : Nat) (v : List Byte) : (s.memWrite base off v).done = s.done := rfl
@[simp] theorem memWrite_ovr (s : State) (base off : Nat) (v : List Byte) : (s.memWrite base off v).ovr = s.ovr := rfl
@[simp] theorem memWrite_err (s : State) (base off : Nat) (v : List Byte) : (s.memWrite base off v).err = s.err := rfl
@[simp] theorem memWrite_len (s : State) (base off : Nat) (v : List Byte) : (s.memWrite base off v).len = s.len := rfl
@[simp] theorem memWrite_ctxSel (s : State) (base off : Nat) (v : List Byte) : (s.memWrite base off v).ctxSel = s.ctxSel := rfl
@[simp] theorem memWrite_align (s : State) (base off : Nat) (v : List Byte) : (s.memWrite base off v).align = s.align := rfl
@[simp] theorem memWrite_scr (s : State) (base off : Nat) (v : List Byte) : (s.memWrite base off v).scr = s.scr := rfl
@[simp] theorem memWrite_startAddr (s : State) (base off : Nat) (v : List Byte) : (s.memWrite base off v).startAddr = s.startAddr := rfl
@[simp] theorem memWrite_endAddr (s : State) (base off : Nat) (v : List Byte) : (s.memWrite base off v).endAddr = s.endAddr := rfl
@[simp] theorem memWrite_endFlags (s : State) (base off : Nat) (v : List Byte) : (s.memWrite base off v).endFlags = s.endFlags := rfl
@[simp] theorem memWrite_baseAddr (s : State) (base off : Nat) (v : List Byte) : (s.memWrite base off v).baseAddr = s.baseAddr := rfl
@[simp] theorem memWrite_crcResult (s : State) (base off : Nat) (v : List Byte) : (s.memWrite base off v).crcResult = s.crcResult := rfl
@[simp] theorem memWrite_kek (s : State) (base off : Nat) (v : List Byte) : (s.memWrite base off v).kek = s.kek := rfl
@[simp] theorem memWrite_skek (s : State) (base off : Nat) (v : List Byte) : (s.memWrite base off v).skek = s.skek := rfl
@[simp] theorem memWrite_imgKey (s : State) (base off : Nat) (v : List Byte) : (s.memWrite base off v).imgKey = s.imgKey := rfl
@[simp] theorem memWrite_ctr8 (s : State) (base off : Nat) (v : List Byte) : (s.memWrite base off v).ctr8 = s.ctr8 := rfl
@[simp] theorem memWrite_iv (s : State) (base off : Nat) (v : List Byte) : (s.memWrite base off v).iv = s.iv := rfl
@[simp] theorem memWrite_ctr16 (s : State) (base off : Nat) (v : List Byte) : (s.memWrite base off v).ctr16 = s.ctr16 := rfl
@[simp] theorem memWrite_blobPt (s : State) (base off : Nat) (v : List Byte) : (s.memWrite base off v).blobPt = s.blobPt := rfl
@[simp] theorem memWrite_blobCt (s : State) (base off : Nat) (v : List Byte) : (s.memWrite base off v).blobCt = s.blobCt := rfl
@[simp] theorem memWrite_mem (s : State) (base off : Nat) (v : List Byte) : (s.memWrite base off v).mem = s.mem.writeBytes (base + off) v := rfl
@[simp] theorem memWrite_cfg (s : State) (base off : Nat) (v : List Byte) : (s.memWrite base off v).cfg = s.cfg := rfl
@[simp] theorem memWrite_program (s : State) (base off : Nat) (v : List Byte) : (s.memWrite base off v).program = s.program := rfl
@[simp] theorem memWrite_hostPc (s : State) (base off : Nat) (v : List Byte) : (s.memWrite base off v).hostPc = s.hostPc := rfl
@[simp] theorem memWrite_trace (s : State) (base off : Nat) (v : List Byte) : (s.memWrite base off v).trace = s.trace := rfl
@[simp] theorem memWrite_delay (s : State) (base off : Nat) (v : List Byte) : (s.memWrite base off v).delay = s.delay := rfl
@[simp] theorem memWrite_delays (s : State) (base off : Nat) (v : List Byte) : (s.memWrite base off v).delays = s.delays := rfl
@[simp] theorem memWrite_aesDraws (s : State) (base off : Nat) (v : List Byte) : (s.memWrite base off v).aesDraws = s.aesDraws := rfl
@[simp] theorem memWrite_busyReads (s : State) (base off : Nat) (v : List Byte) : (s.memWrite base off v).busyReads = s.busyReads := rfl
@[simp] theorem memWrite_resets (s : State) (base off : Nat) (v : List Byte) : (s.memWrite base off v).resets = s.resets := rfl
@[simp] theorem memWrite_resetPin (s : State) (base off : Nat) (v : List Byte) : (s.memWrite base off v).resetPin = s.resetPin := rfl

/-! ### coreReset -/

@[simp] theorem coreReset_pending (s : State) : (coreReset s).pending = State.reset.pending := rfl
@[simp] theorem coreReset_done (s : State) : (coreReset s).done = State.reset.done := rfl
@[simp] theorem coreReset_ovr (s : State) : (coreReset s).ovr = State.reset.ovr := rfl
@[simp] theorem coreReset_err (s : State) : (coreReset s).err = State.reset.err := rfl
@[simp] theorem coreReset_len (s : State) : (coreReset s).len = State.reset.len := rfl
@[simp] theorem coreReset_ctxSel (s : State) : (coreReset s).ctxSel = State.reset.ctxSel := rfl
@[simp] theorem coreReset_align (s : State) : (coreReset s).align = State.reset.align := rfl
@[simp] theorem coreReset_scr (s : State) : (coreReset s).scr = State.reset.scr := rfl
@[simp] theorem coreReset_startAddr (s : State) : (coreReset s).startAddr = State.reset.startAddr := rfl
@[simp] theorem coreReset_endAddr (s : State) : (coreReset s).endAddr = State.reset.endAddr := rfl
@[simp] theorem coreReset_endFlags (s : State) : (coreReset s).endFlags = State.reset.endFlags := rfl
@[simp] theorem coreReset_baseAddr (s : State) : (coreReset s).baseAddr = State.reset.baseAddr := rfl
@[simp] theorem coreReset_crcResult (s : State) : (coreReset s).crcResult = State.reset.crcResult := rfl
@[simp] theorem coreReset_kek (s : State) : (coreReset s).kek = State.reset.kek := rfl
@[simp] theorem coreReset_skek (s : State) : (coreReset s).skek = State.reset.skek := rfl
@[simp] theorem coreReset_imgKey (s : State) : (coreReset s).imgKey = State.reset.imgKey := rfl
@[simp] theorem coreReset_ctr8 (s : State) : (coreReset s).ctr8 = State.reset.ctr8 := rfl
@[simp] theorem coreReset_iv (s : State) : (coreReset s).iv = State.reset.iv := rfl
@[simp] theorem coreReset_ctr16 (s : State) : (coreReset s).ctr16 = State.reset.ctr16 := rfl
@[simp] theorem coreReset_blobPt (s : State) : (coreReset s).blobPt = State.reset.blobPt := rfl
@[simp] theorem coreReset_blobCt (s : State) : (coreReset s).blobCt = State.reset.blobCt := rfl
@[simp] theorem coreReset_mem (s : State) : (coreReset s).mem = State.reset.mem := rfl
@[simp] theorem coreReset_cfg (s : State) : (coreReset s).cfg = s.cfg := rfl
@[simp] theorem coreReset_program (s : State) : (coreReset s).program = s.program := rfl
@[simp] theorem coreReset_hostPc (s : State) : (coreReset s).hostPc = s.hostPc := rfl
@[simp] theorem coreReset_trace (s : State) : (coreReset s).trace = s.trace := rfl
@[simp] theorem coreReset_delay (s : State) : (coreReset s).delay = State.reset.delay := rfl
@[simp] theorem coreReset_delays (s : State) : (coreReset s).delays = s.delays := rfl
@[simp] theorem coreReset_aesDraws (s : State) : (coreReset s).aesDraws = s.aesDraws := rfl
@[simp] theorem coreReset_busyReads (s : State) : (coreReset s).busyReads = s.busyReads := rfl
@[simp] theorem coreReset_resets (s : State) : (coreReset s).resets = s.resets + 1 := rfl
@[simp] theorem coreReset_resetPin (s : State) : (coreReset s).resetPin = false := rfl

/-! ### The ends of a command in terms of complete -/

@[simp] theorem raise_eq (e : CmdError) (s : State) : raise e s = complete (some e) s := rfl
@[simp] theorem succeed_eq (s : State) : succeed s = complete none s := rfl

/-! ### STATUS.BUSY -/

@[simp] theorem busy_of_none {s : State} (h : s.pending = none) : s.busy = false := by simp [State.busy, h]
@[simp] theorem busy_of_some {s : State} {w : Word} (h : s.pending = some w) : s.busy = true := by
  simp [State.busy, h]
theorem busy_eq_false_iff (s : State) : s.busy = false ↔ s.pending = none := by
  simp [State.busy]
theorem busy_eq_true_iff (s : State) : s.busy = true ↔ ∃ w, s.pending = some w := by
  simp [State.busy, Option.isSome_iff_exists]
@[simp] theorem accept_busy (w : Word) (s : State) : (accept w s).busy = true := rfl
@[simp] theorem complete_busy (e : Option CmdError) (s : State) : (complete e s).busy = false := rfl

end Sys2Proof.Machine
end

