-- ==== Sys2Proof/Laws/Window.lean ====
section
/-! SUPPORT. The register window: what an offset names, and everything a host read or write can do. -/

namespace Sys2Proof.Machine

/-- Every register size is a multiple of 4 when the configuration is legal. -/
theorem Reg.size_mod_four (cfg : Config) (h : cfg.Legal) (r : Reg) : r.size cfg % 4 = 0 := by
  have := h.1
  cases r <;> simp only [Reg.size] <;> omega

/-- Every register starts at a multiple of 4. -/
theorem Reg.base_mod_four (r : Reg) : r.base % 4 = 0 := by cases r <;> rfl

theorem Reg.mem_all (r : Reg) : r ∈ Reg.all := by cases r <;> decide

/-- What a window offset names: the register, and the word k of it. -/
theorem regAt_some {cfg : Config} {off : Nat} {r : Reg} {k : Nat} (h : regAt cfg off = some (r, k)) :
    off = r.base + 4 * k ∧ 4 * k < r.size cfg := by
  unfold regAt at h
  split at h
  · cases h
  · rename_i hm
    rw [Option.map_eq_some_iff] at h
    obtain ⟨r', hf, he⟩ := h
    have hc := List.find?_some hf
    simp only [Reg.covers, Bool.and_eq_true, decide_eq_true_eq] at hc
    injection he with h1 h2
    subst h1
    have := Reg.base_mod_four r'
    omega

/-- The word of a register that an offset names lies wholly in the register. -/
theorem regAt_word_inside {cfg : Config} {off : Nat} {r : Reg} {k : Nat} (hl : cfg.Legal)
    (h : regAt cfg off = some (r, k)) : 4 * k + 4 ≤ r.size cfg := by
  have h1 := (regAt_some h).2
  have h2 := Reg.size_mod_four cfg hl r
  omega

/-- Two registers that share an offset are the same, when the configuration is legal. -/
theorem Reg.covers_unique {cfg : Config} (hl : cfg.Legal) {off : Nat} {r r' : Reg}
    (h : r.covers cfg off = true) (h' : r'.covers cfg off = true) : r = r' := by
  have h2 := hl.2
  simp only [Reg.covers, Bool.and_eq_true, decide_eq_true_eq] at h h'
  cases r <;> cases r' <;> first
    | rfl
    | (exfalso; simp only [Reg.base, Reg.size, dataInBase, dataOutBase] at h h'; omega)

/-- An aligned offset inside a register names it. -/
theorem regAt_of_covers {cfg : Config} (hl : cfg.Legal) {off : Nat} {r : Reg} (h4 : off % 4 = 0)
    (h : r.covers cfg off = true) : regAt cfg off = some (r, (off - r.base) / 4) := by
  unfold regAt
  rw [if_neg (by simpa using h4)]
  cases hf : Reg.all.find? (Reg.covers cfg off) with
  | none => exact absurd h (by simpa using List.find?_eq_none.mp hf r (Reg.mem_all r))
  | some r' =>
    have := Reg.covers_unique hl h (List.find?_some hf)
    subst this
    rfl

/-- An offset that is misaligned, or in no register, names nothing. -/
theorem regAt_none_iff (cfg : Config) (off : Nat) :
    regAt cfg off = none ↔ off % 4 ≠ 0 ∨ ∀ r : Reg, r.covers cfg off = false := by
  unfold regAt
  split
  · rename_i h
    exact ⟨fun _ => .inl h, fun _ => rfl⟩
  · rename_i h
    rw [Option.map_eq_none_iff, List.find?_eq_none]
    constructor
    · exact fun hf => .inr fun r => by simpa using hf r (Reg.mem_all r)
    · rintro (h' | h')
      · exact absurd h' h
      · exact fun r _ => by simp [h' r]

/-- Every listed offset lies inside the window. -/
theorem regAt_lt_windowSize {cfg : Config} (hl : cfg.Legal) {off : Nat} {p : Reg × Nat}
    (h : regAt cfg off = some p) : off < windowSize := by
  obtain ⟨r, k⟩ := p
  obtain ⟨h1, h2⟩ := regAt_some h
  have h3 := hl.2
  subst h1
  cases r <;> simp only [Reg.base, Reg.size, dataInBase, dataOutBase, windowSize] at * <;> omega

@[simp] theorem regAt_cmd (cfg : Config) : regAt cfg 0x000 = some (.cmd, 0) := rfl

@[simp] theorem regAt_status (cfg : Config) : regAt cfg 0x004 = some (.status, 0) := rfl

/-- Only offset 0x004 names STATUS. -/
theorem regAt_status_offset {cfg : Config} {off k : Nat} (h : regAt cfg off = some (.status, k)) :
    off = 0x004 := by
  obtain ⟨h1, h2⟩ := regAt_some h
  simp only [Reg.base, Reg.size] at h1 h2
  omega

/-- Only offset 0x000 names CMD. -/
theorem regAt_cmd_offset {cfg : Config} {off k : Nat} (h : regAt cfg off = some (.cmd, k)) : off = 0x000 := by
  obtain ⟨h1, h2⟩ := regAt_some h
  simp only [Reg.base, Reg.size] at h1 h2
  omega

/-- Bits [8j+7 : 8j] of a buffer word are its byte j (R50). -/
theorem State.bufWord_byte (s : State) (a j : Nat) (h : j < 4) :
    (s.bufWord a).extractLsb' (8 * j) 8 = s.bufByte (a + j) := by
  rw [State.bufWord, fromLE32_byte _ _ h]
  match j, h with
  | 0, _ => rfl
  | 1, _ => rfl
  | 2, _ => rfl
  | 3, _ => rfl

/-- A buffer word written is the word read. -/
theorem State.bufWord_written (s : State) (b a : Nat) (w : Word) :
    (s.memWrite b a (le32 w).toList).bufWord (b + a) = w := by
  have h := fun j (hj : j < 4) => State.bufByte_memWrite_inside s b a (le32 w).toList j (by simpa using hj)
  have h0 := h 0 (by decide)
  have h1 := h 1 (by decide)
  have h2 := h 2 (by decide)
  have h3 := h 3 (by decide)
  rw [Nat.add_zero] at h0
  simp only [State.bufWord, h0, h1, h2, h3]
  have : (#v[(le32 w).toList[0], (le32 w).toList[1], (le32 w).toList[2],
     (le32 w).toList[3]] : Bytes 4) = le32 w := by rfl
  rw [this, fromLE32_le32]

/-- A buffer word depends on its four bytes only. -/
theorem State.bufWord_congr {s t : State} (a : Nat) (h : ∀ j < 4, t.bufByte (a + j) = s.bufByte (a + j)) :
    t.bufWord a = s.bufWord a := by
  have h0 := h 0 (by decide)
  rw [Nat.add_zero] at h0
  simp only [State.bufWord, h0, h 1 (by decide), h 2 (by decide), h 3 (by decide)]

/-- STATUS depends on its four fields only (R20). -/
theorem State.statusWord_congr {s t : State} (h1 : t.pending = s.pending) (h2 : t.done = s.done)
    (h3 : t.ovr = s.ovr) (h4 : t.err = s.err) : t.statusWord = s.statusWord := by
  simp [State.statusWord, State.busy, h1, h2, h3, h4]

/-! ### The bus -/

/-- The system address of a window offset names that offset. -/
theorem windowOffset_base_add (cfg : Config) (off : Nat) :
    windowOffset cfg (cfg.blockBase + off) = if off < windowSize then some off else none := by
  unfold windowOffset
  split
  · rename_i h
    rw [if_pos (by omega), Nat.add_sub_cancel_left]
  · rename_i h
    rw [if_neg (by omega)]

theorem busRead_base_add (s : State) (off : Nat) :
    busRead (s.cfg.blockBase + off) s = if off < windowSize then readWindow off s else none := by
  unfold busRead
  rw [windowOffset_base_add]
  split <;> rfl

theorem busWrite_base_add (s : State) (off : Nat) (w : Word) :
    busWrite (s.cfg.blockBase + off) w s = if off < windowSize then writeWindow off w s else none := by
  unfold busWrite
  rw [windowOffset_base_add]
  split <;> rfl

/-! ### What a host access can do -/

/-- A read changes nothing but the draws of reads while busy. -/
theorem readReg_state (r : Reg) (k : Nat) (s : State) :
    (readReg r k s).2 = s ∨ (readReg r k s).2 = { s with busyReads := s.busyReads.advance } := by
  unfold readReg
  split
  · exact .inr rfl
  · exact .inl rfl

/-- A word that is no output of the pending command reads as the register's value. -/
theorem readReg_stored {r : Reg} {k : Nat} {s : State} (h : s.pendingOutput r = false ∨ hardWired r k = true) :
    readReg r k s = (s.regWord r k, s) := by
  rcases h with h | h <;> simp [readReg, h]

/-- A word of an output of the pending command reads as the next draw. -/
theorem readReg_drawn {r : Reg} {k : Nat} {s : State} (h : s.pendingOutput r = true) (hw : hardWired r k = false) :
    readReg r k s = (s.busyReads.draw Config.busyRead 0, { s with busyReads := s.busyReads.advance }) := by
  simp [readReg, h, hw]

theorem pendingOutput_idle {s : State} (h : s.busy = false) (r : Reg) : s.pendingOutput r = false := by
  simp [State.pendingOutput, (busy_eq_false_iff s).mp h]

/-- STATUS is no command's output (R58). -/
@[simp] theorem pendingOutput_status (s : State) : s.pendingOutput .status = false := by
  unfold State.pendingOutput
  split
  · rfl
  · split
    · rfl
    · rename_i i _
      cases i <;> rfl

/-- While idle a read gives the register's value. -/
theorem readReg_idle {s : State} (h : s.busy = false) (r : Reg) (k : Nat) :
    readReg r k s = (s.regWord r k, s) :=
  readReg_stored (.inl (pendingOutput_idle h r))

theorem readWindow_some {off : Nat} {s t : State} {v : Word} (h : readWindow off s = some (v, t)) :
    t = s ∨ t = { s with busyReads := s.busyReads.advance } := by
  unfold readWindow at h
  rw [Option.map_eq_some_iff] at h
  obtain ⟨p, -, he⟩ := h
  have : t = (readReg p.1 p.2 s).2 := by rw [he]
  subst this
  exact readReg_state _ _ _

/-- Everything a host write can do: a write to STATUS, a lost write, or the register's own write. -/
theorem writeWindow_some {off : Nat} {w : Word} {s t : State} (h : writeWindow off w s = some t) :
    (off = 0x004 ∧ t = clearStatus w s) ∨
    (off ≠ 0x004 ∧ s.busy = true ∧ t = loseWrite s) ∨
    (off ≠ 0x004 ∧ s.busy = false ∧ ∃ r k, regAt s.cfg off = some (r, k) ∧ r ≠ .status ∧ t = writeReg r k w s) := by
  unfold writeWindow at h
  rw [Option.map_eq_some_iff] at h
  obtain ⟨⟨r, k⟩, hr, he⟩ := h
  simp only at he
  split at he
  · rename_i hs
    subst hs
    exact .inl ⟨regAt_status_offset hr, he.symm⟩
  · rename_i hs
    have hne : off ≠ 0x004 := by
      rintro rfl
      rw [regAt_status] at hr
      exact hs (by simpa using congrArg (fun o => o.map Prod.fst) hr.symm)
    split at he
    · rename_i hb
      exact .inr (.inl ⟨hne, hb, he.symm⟩)
    · rename_i hb
      exact .inr (.inr ⟨hne, by simpa using hb, r, k, hr, hs, he.symm⟩)

/-- What a register's write leaves alone, whatever the register. -/
theorem writeReg_frame (r : Reg) (k : Nat) (w : Word) (s : State) :
    (writeReg r k w s).cfg = s.cfg ∧ (writeReg r k w s).program = s.program ∧
    (writeReg r k w s).hostPc = s.hostPc ∧ (writeReg r k w s).trace = s.trace ∧
    (writeReg r k w s).resetPin = s.resetPin ∧ (writeReg r k w s).resets = s.resets ∧
    (writeReg r k w s).crcResult = s.crcResult ∧ (writeReg r k w s).blobCt = s.blobCt := by
  cases r <;> simp [writeReg]

/-- A write to a register other than CMD and STATUS leaves the status and the pending command alone. -/
theorem writeReg_status {r : Reg} (k : Nat) (w : Word) (s : State) (hc : r ≠ .cmd) (hs : r ≠ .status) :
    (writeReg r k w s).pending = s.pending ∧ (writeReg r k w s).done = s.done ∧
    (writeReg r k w s).ovr = s.ovr ∧ (writeReg r k w s).err = s.err := by
  cases r <;> first | contradiction | simp [writeReg]

/-- Only a write to DATA_IN changes memory. -/
theorem writeReg_mem {r : Reg} (k : Nat) (w : Word) (s : State) (h : r ≠ .dataIn) :
    (writeReg r k w s).mem = s.mem := by
  cases r <;> first | contradiction | simp [writeReg]

end Sys2Proof.Machine
end

