-- ==== Sys2Proof/Laws/Step.lean ====
section
/-! SUPPORT. Everything a host step, an engine step and a step can do. -/

namespace Sys2Proof.Machine

/-- A host operation that answers a next state makes at most one access, then moves its own position and may
record a value: nothing of the core changes but by the access. -/
theorem hostOp_cases {op : HostOp} {s t : State} (h : hostOp op s = .next t) :
    (∃ u, (u = s ∨ u = { s with busyReads := s.busyReads.advance } ∨
        ∃ off w, op = .wr off w ∧ writeWindow off w s = some u) ∧
      ∃ l pc, t = { u with hostPc := pc, trace := u.trace ++ l }) := by
  have hread : ∀ off v u, busRead (s.cfg.blockBase + off) s = some (v, u) →
      u = s ∨ u = { s with busyReads := s.busyReads.advance } := by
    intro off v u hb
    rw [busRead_base_add] at hb
    split at hb
    · exact readWindow_some hb
    · cases hb
  cases op with
  | wr off w =>
    simp only [hostOp] at h
    split at h
    · cases h
    · rename_i u hb
      rw [busWrite_base_add] at hb
      split at hb
      · injection h with h
        exact ⟨u, .inr (.inr ⟨off, w, rfl, hb⟩), [], u.hostPc + 1, by simp [← h, hostNext]⟩
      · cases hb
  | rd off =>
    simp only [hostOp] at h
    split at h
    · cases h
    · rename_i v u hb
      injection h with h
      exact ⟨u, (hread off v u hb).imp_right .inl, [v], u.hostPc + 1, h.symm⟩
  | label l =>
    injection h with h
    exact ⟨s, .inl rfl, [], s.hostPc + 1, by simp [← h, hostNext]⟩
  | bnz off mask l =>
    simp only [hostOp] at h
    split at h
    · cases h
    · rename_i v u hb
      split at h
      · injection h with h
        exact ⟨u, (hread off v u hb).imp_right .inl, [], u.hostPc + 1, by simp [← h, hostNext]⟩
      · split at h
        · cases h
        · rename_i pc _
          injection h with h
          exact ⟨u, (hread off v u hb).imp_right .inl, [], pc, by simp [← h]⟩
  | otherWidth width isWrite off => cases h
  | foreign => cases h

/-- A host step that answers a next state: the program has ended and nothing changed, or one operation ran. -/
theorem hostStep_cases {s t : State} (h : hostStep s = .next t) :
    (s.program[s.hostPc]? = none ∧ t = s) ∨ ∃ op, s.program[s.hostPc]? = some op ∧ hostOp op s = .next t := by
  unfold hostStep at h
  split at h
  · rename_i hp
    injection h with h
    exact .inl ⟨hp, h.symm⟩
  · rename_i op hp
    exact .inr ⟨op, hp, h⟩

/-- Everything a host step can do to the state: at most one access, then the host's own bookkeeping. -/
theorem hostStep_effect {s t : State} (h : hostStep s = .next t) :
    ∃ u, (u = s ∨ u = { s with busyReads := s.busyReads.advance } ∨
        ∃ off w, s.program[s.hostPc]? = some (.wr off w) ∧ writeWindow off w s = some u) ∧
      ∃ l pc, t = { u with hostPc := pc, trace := u.trace ++ l } := by
  rcases hostStep_cases h with ⟨-, rfl⟩ | ⟨op, hp, ho⟩
  · exact ⟨t, .inl rfl, [], t.hostPc, by simp⟩
  · obtain ⟨u, hu, l, pc, ht⟩ := hostOp_cases ho
    refine ⟨u, hu.imp_right (.imp_right ?_), l, pc, ht⟩
    rintro ⟨off, w, rfl, hw⟩
    exact ⟨off, w, hp, hw⟩

/-- Every command answers a next state. -/
theorem exec_next (i : Instr) (s : State) : ∃ t, exec i s = .next t := by
  cases i <;> exact ⟨_, rfl⟩

theorem engineStep_illegal {w : Word} {e : DecodeError} (s : State) (h : decode w = .error e) :
    engineStep w s = .next (complete (some .illegalCommand) s) := by simp [engineStep, h]

theorem engineStep_command {w : Word} {i : Instr} (s : State) (h : decode w = .ok i) :
    engineStep w s = exec i s := by simp [engineStep, h]

/-- Everything a step can be: a reset, a host step with no command pending, the engine step, or a host step that
runs the delay down. -/
theorem step_cases {s t : State} (h : step s = .next t) :
    (s.resetPin = true ∧ t = coreReset s) ∨
    (s.resetPin = false ∧ s.pending = none ∧ hostStep s = .next t) ∨
    (s.resetPin = false ∧ ∃ w, s.pending = some w ∧ s.delay = 0 ∧ engineStep w s = .next t) ∨
    (s.resetPin = false ∧ ∃ w d, s.pending = some w ∧ s.delay = d + 1 ∧
      hostStep { s with delay := d } = .next t) := by
  unfold step at h
  split at h
  · rename_i hr
    injection h with h
    exact .inl ⟨hr, h.symm⟩
  · rename_i hr
    have hr : s.resetPin = false := by simpa using hr
    split at h
    · rename_i hp
      exact .inr (.inl ⟨hr, hp, h⟩)
    · rename_i w hp
      split at h
      · rename_i hd
        exact .inr (.inr (.inl ⟨hr, w, hp, hd, h⟩))
      · rename_i d hd
        exact .inr (.inr (.inr ⟨hr, w, d, hp, hd, h⟩))

/-- One step of a run, for each outcome. -/
theorem run_next (M : Host.Core) {s t : M.State} (n : Nat) (h : M.step s = .next t) :
    M.run (n + 1) s = M.run n t := by rw [Host.Core.run, h]

theorem run_fault (M : Host.Core) {s : M.State} {r : M.Fault} (n : Nat) (h : M.step s = .fault r) :
    M.run (n + 1) s = .fault r := by rw [Host.Core.run, h]

theorem run_refused (M : Host.Core) {s : M.State} {r : M.Refusal} (n : Nat) (h : M.step s = .refused r) :
    M.run (n + 1) s = .refused r := by rw [Host.Core.run, h]

theorem core_run_next {s t : State} (n : Nat) (h : step s = .next t) : core.run (n + 1) s = core.run n t :=
  run_next core n h

theorem core_run_fault {s : State} {r : Fault} (n : Nat) (h : step s = .fault r) :
    core.run (n + 1) s = .fault r := run_fault core n h

theorem core_run_refused {s : State} {r : Refusal} (n : Nat) (h : step s = .refused r) :
    core.run (n + 1) s = .refused r := run_refused core n h

theorem core_run_zero (s : State) : core.run 0 s = .next s := rfl

end Sys2Proof.Machine
end

