-- ==== Sys2Proof/Laws/Safety.lean ====
section
/-! SUPPORT. What the next step is, in the terms of the run-based premises: a reset, the performing of a command, a
host operation, or none of these. -/

namespace Sys2Proof.Safety

open Sys2Proof.Machine

/-- The next step performs i exactly when no reset comes and i's word is pending with its delay run out. -/
theorem performing_iff {s : State} {i : Instr} :
    performing s = some i ↔ s.resetPin = false ∧ s.delay = 0 ∧ ∃ w, s.pending = some w ∧ decode w = .ok i := by
  unfold performing
  split
  · rename_i w hr hp hd
    cases hw : decode w <;> simp [hr, hp, hd, hw, Except.toOption]
  · rename_i h
    simp only [reduceCtorEq, false_iff, not_and, not_exists]
    exact fun hr hd w hp _ => h w hr hp hd

/-- Everything a step can be: a reset; the performing of a command; the engine step of an illegal word, or the delay
running down with an ended program, in neither of which anything acts; or a host operation. -/
theorem step_kinds {s t : State} (h : step s = .next t) :
    (s.resetPin = true ∧ t = coreReset s) ∨
    (s.resetPin = false ∧ ∃ i, performing s = some i ∧ exec i s = .next t) ∨
    (s.resetPin = false ∧ performing s = none ∧ hostActs s = none ∧
      (t = complete (some .illegalCommand) s ∨ ∃ d, t = { s with delay := d })) ∨
    (s.resetPin = false ∧ performing s = none ∧
      ∃ op d, hostActs s = some op ∧ hostOp op { s with delay := d } = .next t) := by
  rcases step_cases h with h | ⟨hr, hp, h⟩ | ⟨hr, w, hp, hd, h⟩ | ⟨hr, w, d, hp, hd, h⟩
  · exact .inl h
  · rcases hostStep_cases h with ⟨hn, rfl⟩ | ⟨op, ho, h⟩
    · exact .inr (.inr (.inl ⟨hr, by simp [performing, hr, hp], by simp [hostActs, hr, hp, hn], .inr ⟨t.delay, rfl⟩⟩))
    · exact .inr (.inr (.inr ⟨hr, by simp [performing, hr, hp], op, s.delay, by simp [hostActs, hr, hp, ho], h⟩))
  · cases hw : decode w with
    | error e =>
      rw [engineStep_illegal s hw] at h
      injection h with h
      exact .inr (.inr (.inl ⟨hr, by simp [performing, hr, hp, hd, hw, Except.toOption], by simp [hostActs, hr, hp, hd],
        .inl h.symm⟩))
    | ok i =>
      rw [engineStep_command s hw] at h
      exact .inr (.inl ⟨hr, i, performing_iff.mpr ⟨hr, hd, w, hp, hw⟩, h⟩)
  · have hn : performing s = none := by simp [performing, hr, hp, hd]
    rcases hostStep_cases h with ⟨ho, rfl⟩ | ⟨op, ho, h⟩
    · exact .inr (.inr (.inl ⟨hr, hn, by simpa [hostActs, hr, hp, hd] using ho, .inr ⟨d, rfl⟩⟩))
    · exact .inr (.inr (.inr ⟨hr, hn, op, d, by simpa [hostActs, hr, hp, hd] using ho, h⟩))

/-- One more step of what holds along a run. -/
theorem alongRun_next {P : Words → State → Bool} {n : Nat} {W : Words} {s t : State} (h : step s = .next t) :
    AlongRun P (n + 1) W s = (P W s && AlongRun P n (writtenAfter W s t) t) := by simp [AlongRun, h]

/-- One more step of a run's blob events. -/
theorem blobEvents_next {n : Nat} {s t : State} (h : step s = .next t) :
    blobEvents (n + 1) s = (blobEvent s t).toList ++ blobEvents n t := by simp [blobEvents, h]

theorem mem_wordsOf {r r' : Reg} {n k : Nat} : (r', k) ∈ wordsOf r n ↔ r' = r ∧ k < n := by
  simp [wordsOf, and_comm, eq_comm]

end Sys2Proof.Safety
end

