-- ==== Sys2Proof/Tests/Slice0.lean ====
section
/-! SUPPORT. Tests. Expected values come from the spec's tables, its worked examples and its vectors K, V, P of
95_test_vectors.md, named at each test; none is the model's own answer. -/

namespace Sys2Proof.Tests

open Sys2Proof.Machine Sys2Proof.Safety Sys2Proof.Claims

/-! ### Helpers -/

/-- The n bytes of a number written in hexadecimal, the first byte the most significant. -/
def hex (n x : Nat) : Bytes n := Vector.ofFn fun i => BitVec.ofNat 8 (x >>> (8 * (n - 1 - i.val)))

/-- The test configuration: FLASH_BASE as in 95_test_vectors.md, a window address, a small DATA_CAP. -/
def cfg : Config := { Config.chip with flashBase := 0x60000000, blockBase := 0x402A0000, dataCap := 0x40 }

/-- An idle core after reset whose next 64 AES invocations do not fail. -/
def idle : State := { State.reset with cfg := cfg, aesDraws := ⟨List.replicate 64 false, 0⟩ }

/-- A core whose next AES invocations fail as the list says. -/
def failing (l : List Bool) : State := { idle with aesDraws := ⟨l, 0⟩ }

/-- A core with an accepted command word and a delay. -/
def pending (w : Word) (d : Nat) : State := { idle with pending := some w, delay := d }

/-- A host that runs a program. -/
def host (s : State) (p : List HostOp) : State := { s with program := p }

/-- The bytes stored from DATA_IN's first on. -/
def dataIn (s : State) (l : List Byte) : State := s.memWrite dataInBase 0 l

/-- A field of an outcome's state. -/
def field {α : Type} (f : State → α) : Host.Outcome State Fault Refusal → Option α
  | .next t => some (f t)
  | .fault _ => none
  | .refused _ => none

/-- The fault of an outcome. -/
def faultOf : Host.Outcome State Fault Refusal → Option Fault
  | .next _ => none
  | .fault r => some r
  | .refused _ => none

/-- DATA_OUT[0..n), as stored. -/
def outBytes (n : Nat) (s : State) : List (Option Byte) := (List.range n).map fun k => s.mem.read (dataOutBase + k)

/-! ### WellFormed: an ill-formed term for each check -/

theorem test_wf_reserved_bit_refused : WellFormed.commandWord 0x00000011 = false := by decide
theorem test_wf_op_zero_refused : WellFormed.commandWord 0x00000000 = false := by decide
theorem test_wf_op_eight_refused : WellFormed.commandWord 0x00000008 = false := by decide
theorem test_wf_command_accepted : WellFormed.commandWord 0x00000007 = true := by decide
theorem test_wf_capacity_not_multiple_refused : WellFormed.config { cfg with dataCap := 24 } = false := by decide
theorem test_wf_capacity_too_large_refused : WellFormed.config { cfg with dataCap := 0x100010 } = false := by decide
theorem test_wf_capacity_accepted : WellFormed.config Config.chip = true := by decide
theorem test_wf_label_twice_refused : WellFormed.labelsDistinct [.label 1, .label 1] = false := by decide
theorem test_wf_label_missing_refused : WellFormed.targetsDefined [.bnz 4 1 7] = false := by decide
theorem test_wf_form_refused : WellFormed.formsKnown [.foreign] = false := by decide
theorem test_wf_width_refused : WellFormed.formsKnown [.otherWidth .w8 true 8] = false := by decide
theorem test_wf_program_accepted : WellFormed.hostProgram (opRun .extCtr 1) = true := by decide

/-! ### Decode: words written out from R62 and R64, and the illegal words of V6.4 -/

theorem test_decode_crc32 : decode 0b00000000000000000000000000000001 = .ok .crc32 := by decide
theorem test_decode_scramble : decode 0b00000000000000000000000000000010 = .ok .scramble := by decide
theorem test_decode_build_blob : decode 0b00000000000000000000000000000011 = .ok .buildBlob := by decide
theorem test_decode_kwrap : decode 0b00000000000000000000000000000100 = .ok .kwrap := by decide
theorem test_decode_blob_swap : decode 0b00000000000000000000000000000101 = .ok .blobSwap := by decide
theorem test_decode_ext_ctr : decode 0b00000000000000000000000000000110 = .ok .extCtr := by decide
theorem test_decode_ctr_crypt : decode 0b00000000000000000000000000000111 = .ok .ctrCrypt := by decide
theorem test_decode_illegal : decode 0x0 = .error .unassignedOp ∧ decode 0x8 = .error .unassignedOp ∧
    decode 0xF = .error .unassignedOp ∧ decode 0x11 = .error .reservedBits ∧
    decode 0x80000007 = .error .reservedBits := by decide
theorem test_table_word : decodeTableWord 32 0x00000004 = some .kwrap ∧ decodeTableWord 32 0x00000011 = none := by
  decide

/-! ### CRC32 -/

/-- The spot checks of 95_test_vectors.md 2.1, and T[0xE4] of R68's table. -/
theorem test_crc_table : crcTableEntry .msbFirst 0 = 0 ∧ crcTableEntry .msbFirst 1 = 0x04C11DB7 ∧
    crcTableEntry .msbFirst 128 = 0x690CE0EE ∧ crcTableEntry .msbFirst 255 = 0xB1F740B4 ∧
    crcTableEntry .msbFirst 0xE4 = 0xD6AD50A5 ∧ crcTableEntry .reflected 1 = 0x77073096 := by decide

/-- V1.4. -/
theorem test_crc32_check_value : field State.crcResult (exec .crc32
    { dataIn idle [0x31, 0x32, 0x33, 0x34, 0x35, 0x36, 0x37, 0x38, 0x39] with len := 9 }) = some 0x0376E6E7 := by
  decide +kernel

/-- V1.4, the alternative column. -/
theorem test_crc32_reflected : crc32 .reflected [0x31, 0x32, 0x33, 0x34, 0x35, 0x36, 0x37, 0x38, 0x39] =
    0x3BF12F4F := by decide

/-- V6.1's CRC32 rows, for the test configuration's DATA_CAP: one byte too many is an error. -/
theorem test_crc32_length : field State.statusWord (exec .crc32 { idle with len := 0x41 }) = some 0x102 ∧
    field State.statusWord (exec .crc32 { idle with len := 0 }) = some 0x002 := by decide

/-! ### SCRAMBLE -/

def kek : Bytes 16 := hex 16 0x00112233445566778899AABBCCDDEEFF

/-- V2.1 row 4. -/
theorem test_scramble_slot_three : field State.skek (exec .scramble
    { idle with kek := kek, scr := hex 4 0x01020304, align := 0xE4, ctxSel := 3 }) =
      some (hex 16 0x00112233445566778899AABBCDDFEDFB) := by decide

/-- V2.4: the core does not reverse the bits of SCR; the host does. -/
theorem test_scramble_bit_reversed : field State.skek (exec .scramble { idle with
    kek := kek, scr := #v[bitrev8 0x01, bitrev8 0x02, bitrev8 0x03, bitrev8 0x04], align := 0xE4, ctxSel := 1 }) =
      some (hex 16 0x00112233C415A6578899AABBCCDDEEFF) := by decide

/-- V2.2. -/
theorem test_bitrev8 : bitrev8 0x12 = 0x48 ∧ bitrev8 0xF0 = 0x0F ∧ bitrev8 0x03 = 0xC0 := by decide

/-! ### BUILD_BLOB -/

def imgKey : Bytes 16 := hex 16 0x2B7E151628AED2A6ABF7158809CF4F3C

/-- The operands of V3.1. -/
def region : State :=
  { idle with imgKey := imgKey, ctr8 := hex 8 0x0102030405060708, startAddr := 0x60001000
              endAddr := 0x60002000, endFlags := 7 }

/-- V3.1's blob. -/
def blob : Bytes 40 := hex 40 0x2B7E151628AED2A6ABF7158809CF4F3C01020304050607080010006007200060000000001BAAD3CA

/-- V3.1. -/
theorem test_build_blob : field (fun t => (t.blobPt, t.crcResult, t.statusWord)) (exec .buildBlob region) =
    some (blob, 0xCAD3AA1B, 0x002) := by decide +kernel

/-- V3.2, and V6.3's first, third and last rows. -/
theorem test_build_blob_variants :
    field (fun t => slice t.blobPt 36 4)
      (exec .buildBlob { region with cfg := { cfg with crcStoreOrder := .big } }) = some (hex 4 0xCAD3AA1B) ∧
    field State.statusWord (exec .buildBlob { region with endAddr := 0x60001000 }) = some 0x302 ∧
    field State.statusWord (exec .buildBlob { region with startAddr := 0x5FFFFC00 }) = some 0x302 ∧
    field State.statusWord (exec .buildBlob
      { region with startAddr := 0x60000000, endAddr := 0x60000400, endFlags := 0 }) = some 0x002 := by
  decide +kernel

/-! ### KWRAP and BLOB_SWAP -/

/-- K1: FIPS-197 Appendix C.1. -/
theorem test_aes_fips197 : aesEncrypt (hex 16 0x000102030405060708090A0B0C0D0E0F) kek =
    hex 16 0x69C4E0D86A7B0430D8CDB78070B4C55A := by decide +kernel

/-- V4.1's wrapped blob. -/
def wrapped : Bytes 48 := hex 48 <|
  0xA58FE596D58BE02032A7D757EB7E5A0894F188968F1F40FE <<< 192 |||
  0x128C7637F312E077F906C3D2281F886CF2669CA8EEF3BC68

/-- V4.3, round 1. -/
theorem test_wrap_first_round :
    let w := wrapInit blob (Vector.replicate 8 0xA6)
    let w' := wrapUpdate 0 0 (aesEncrypt kek (w.a ++ w.r[0])) w
    w'.a = hex 8 0xCD743220AD0556A1 ∧ w'.r[0] = hex 8 0x64CE01F4F6D3428C ∧ w'.r[4] = w.r[4] := by decide +kernel

/-- V4.3, round 30 from the registers of the rounds before it, and V4.1. -/
theorem test_wrap_last_round :
    let w : WrapRegs := ⟨hex 8 0xBA26AF4782631B0D, #v[hex 8 0x32A7D757EB7E5A08, hex 8 0x94F188968F1F40FE,
      hex 8 0x128C7637F312E077, hex 8 0xF906C3D2281F886C, hex 8 0x535169C8ED43ADAE]⟩
    wrapOutput (wrapUpdate 5 4 (aesEncrypt kek (w.a ++ w.r[4])) w) = wrapped := by decide +kernel

/-- V6.2: KWRAP with a failing draw, on the first round. -/
theorem test_kwrap_failure : field (fun t => (t.statusWord, t.blobCt, t.aesDraws.used))
    (exec .kwrap { failing [true] with blobCt := wrapped }) = some (0x202, wrapped, 1) := by decide

/-- V4.2. -/
theorem test_blob_swap : field (fun t => (t.blobCt, t.statusWord)) (exec .blobSwap { idle with blobCt := wrapped }) =
    some (hex 48 (0x20E08BD596E58FA5085A7EEB57D7A732FE401F8F9688F194 <<< 192 |||
      0x77E012F337768C126C881F28D2C306F968BCF3EEA89C66F2), 0x002) := by decide

/-- The example of R85. -/
theorem test_wswap : wswap (hex 16 0x000102030405060708090A0B0C0D0E0F) =
    hex 16 0x07060504030201000F0E0D0C0B0A0908 := by decide

/-! ### EXT_CTR and CTR_CRYPT -/

/-- V5.1, rows 1 and 3. -/
theorem test_ext_ctr :
    field State.ctr16 (exec .extCtr { idle with ctr8 := hex 8 0x0102030405060708, baseAddr := 0x60001000 }) =
      some (hex 16 0x01020304050607080404040C60001000) ∧
    field State.ctr16 (exec .extCtr { idle with baseAddr := 0xFFFFFFFF }) = some (hex 16 0xFFFFFFFF) := by
  decide

/-- The operands of V5.2, with the first 16 bytes of DATA_IN. -/
def image : State :=
  { dataIn idle (hex 16 0x000102030405060708090A0B0C0D0E0F).toList with
      imgKey := imgKey, ctr16 := hex 16 0x01020304050607080404040C60001000, baseAddr := 0x60001000, len := 16 }

/-- The worked example of R107: block 0 of V5.2. -/
theorem test_ctr_crypt : field (fun t => (outBytes 16 t, t.ctr16, t.statusWord)) (exec .ctrCrypt image) =
    some ((hex 16 0x586C6C92CA7C1CABF41021D37EF25986).toList.map some,
      hex 16 0x01020304050607080404040C60001000, 0x002) := by decide +kernel

/-- V5.3's addresses and V6.2's failure on block 1: block 1 of base 0xFFFFFFF0 has address 0, and CTR16 keeps the
failing block's address. -/
theorem test_ctr_crypt_failure : field (fun t => (t.ctr16, t.statusWord, outBytes 1 t)) (exec .ctrCrypt
    { dataIn (failing [false, true]) (List.replicate 32 0) with
        imgKey := imgKey, ctr16 := hex 16 0x01020304050607080404040C60001000, baseAddr := 0xFFFFFFF0, len := 32 }) =
    some (hex 16 0x01020304050607080404040C00000000, 0x202, [none]) := by decide

/-! ### STATUS, the window, the step -/

/-- V6.4: the illegal words, performed. -/
theorem test_illegal_words : [0x0, 0x8, 0xF, 0x11, 0x80000007].map (fun w =>
    field State.statusWord (step (pending (BitVec.ofNat 32 w) 0))) = List.replicate 5 (some 0x402) := by
  decide

/-- V6.5: CLR clears DONE and OVR, not ERR. -/
theorem test_clr : field State.statusWord (step
    (host { idle with done := true, ovr := true, err := some .illegalCommand } opClr)) = some 0x400 := by decide

/-- The table of 2.7, and R50's example. -/
theorem test_byte_lanes : (List.range 4).map ({ idle with kek := kek }.regWord .kek) =
      [0x33221100, 0x77665544, 0xBBAA9988, 0xFFEEDDCC] ∧
    (writeReg .scr 0 0x20C04080 idle).scr = hex 4 0x8040C020 ∧ idle.regWord .iv 1 = 0xA6A6A6A6 := by decide

/-- V6.6. -/
theorem test_bus_errors : faultOf (step (host idle [.otherWidth .w8 true 0x008])) = some .hostBusError ∧
    faultOf (step (host idle [.rd 0x00A])) = some .hostBusError ∧
    faultOf (step (host idle [.rd 0x030])) = some .hostBusError := by decide

/-- R22: CTX_SEL stores two bits; R29: FLASH_BASE ignores a write. -/
theorem test_reserved_bits : field (fun t => (t.regWord .ctxSel 0, t.pending)) (step
      (host idle [.wr 0x00C 0x00000005])) = some (1, none) ∧
    field (fun t => t.regWord .flashBase 0) (step (host idle [.wr 0x028 0])) = some 0x60000000 := by decide

/-- The example of R67. -/
theorem test_wrb : opWrb .ctr8 (hex 8 0x0102030405060708).toList =
    [.wr 0x070 0x04030201, .wr 0x074 0x08070605] := by decide

/-- P4 step 5, outcome B: the racing write is lost and sets OVR; the engine has not moved. -/
theorem test_race_lost_write : field (fun t => (t.statusWord, t.len)) (step
    (host { pending 7 1 with len := 16 } [.wr 0x008 32])) = some (0x5, 16) := by decide

/-- P4 step 5, outcome A: the engine moves first (here it performs EXT_CTR, and the host has not moved). -/
theorem test_race_engine_first : field (fun t => (t.statusWord, t.hostPc)) (step
    (host (pending 6 0) [.wr 0x008 32])) = some (0x2, 0) := by decide

/-- A program that runs from reset in which nothing has been accepted: the host moves (R132). -/
theorem test_first_step_after_reset : step State.reset = .next State.reset := by rfl

/-! ### Witnesses: each statement's hypotheses can be met together -/

/-- An outcome whose state has a property is a next state with it. -/
theorem next_with {o : Host.Outcome State Fault Refusal} (P : State → Prop) [DecidablePred P]
    (h : field (fun t => decide (P t)) o = some true) : ∃ t, o = .next t ∧ P t := by
  cases o with
  | next t => exact ⟨t, rfl, by simpa [field] using h⟩
  | fault r => cases h
  | refused r => cases h

theorem idle_no_failure (n : Nat) (h : n ≤ 64) (s : State) (hs : s.aesDraws = idle.aesDraws) : NoAesFailure s n := by
  intro k hk
  rw [hs]
  show ((List.replicate 64 false)[k]?).getD _ = false
  rw [List.getElem?_replicate, if_pos (by omega)]
  rfl

theorem witness_DecodeEncodeRoundTrip : Instr.wf .ctrCrypt = true ∧ decode 7 = .ok .ctrCrypt := by decide

/-- The boundary words of both clauses. -/
theorem witness_IllegalWordsRaiseIllegalCommand :
    ((0x0 : Word).extractLsb 3 0).toNat = 0 ∧ 8 ≤ ((0x8 : Word).extractLsb 3 0).toNat ∧
    8 ≤ ((0xF : Word).extractLsb 3 0).toNat ∧ (0x80000007 : Word).extractLsb 31 4 ≠ 0 ∧
    (0x11 : Word).extractLsb 31 4 ≠ 0 ∧ idle.busy = false ∧
    ((pending 8 0).resetPin = false ∧ (pending 8 0).pending = some 8 ∧ (pending 8 0).delay = 0) ∧
    ¬ ((1 : Word).extractLsb 31 4 ≠ 0 ∨ ((1 : Word).extractLsb 3 0).toNat = 0 ∨
      8 ≤ ((1 : Word).extractLsb 3 0).toNat) ∧
    ¬ ((7 : Word).extractLsb 31 4 ≠ 0 ∨ ((7 : Word).extractLsb 3 0).toNat = 0 ∨
      8 ≤ ((7 : Word).extractLsb 3 0).toNat) := by decide

theorem witness_StepRunsPendingCommand : (pending 6 0).resetPin = false ∧ (pending 6 0).pending = some 6 ∧
    (pending 6 0).delay = 0 ∧ decode 6 = .ok .extCtr := by decide

theorem witness_StepMovesHostWhileWaiting :
    (idle.resetPin = false ∧ idle.pending = none ∧ idle.program.length ≤ idle.hostPc) ∧
    ((pending 6 1).resetPin = false ∧ (pending 6 1).pending = some 6 ∧ (pending 6 1).delay = 0 + 1) ∧
    (host idle opClr).program[(host idle opClr).hostPc]? = some (.wr 4 6) := by decide

theorem witness_ResetStepGivesResetValues : { pending 7 3 with resetPin := true }.resetPin = true := rfl

theorem witness_StepKeepsInvariant : Inv idle ∧ Inv (host idle [.wr 0x100000 5]) ∧
    ∃ t, step (host idle [.wr 0x100000 5]) = .next t ∧ t.mem.length = 4 := by
  have h : Inv (host idle [.wr 0x100000 5]) :=
    ⟨List.Pairwise.nil, (by intro c hc; cases hc), by decide, by decide, by decide⟩
  exact ⟨⟨h.memWf, h.memInBuffers, h.busyNotDone, h.busyNoError, h.cfgLegal⟩, h,
    next_with _ (by decide)⟩

theorem witness_StepKeepsParametersAndProgram : ∃ t, step (host idle [.rd 0x004]) = .next t ∧ t.trace = [0] :=
  next_with _ (by decide)

/-- Both ways a command stops pending. -/
theorem witness_BusyUntilPerformed :
    ((pending 6 0).pending = some 6 ∧ ∃ t, step (pending 6 0) = .next t ∧ t.pending ≠ some 6) ∧
    ∃ t, step { pending 6 9 with resetPin := true } = .next t ∧ t.pending ≠ some 6 :=
  ⟨⟨rfl, next_with _ (by decide)⟩, next_with _ (by decide)⟩

/-- Both ways OVR is cleared. -/
theorem witness_OvrStaysUntilCleared :
    (∃ t, step (host { idle with ovr := true } opClr) = .next t ∧ t.ovr = false) ∧
    ∃ t, step { idle with ovr := true, resetPin := true } = .next t ∧ t.ovr = false :=
  ⟨next_with _ (by decide), next_with _ (by decide)⟩

theorem witness_OvrSetOnlyByLostWrite : (pending 7 1).ovr = false ∧
    ∃ t, step (host (pending 7 1) [.wr 0x008 32]) = .next t ∧ t.ovr = true :=
  ⟨rfl, next_with _ (by decide)⟩

/-- Both clauses, with a delay of 0 and of 1. -/
theorem witness_EngineIsReached :
    (∃ t, core.run (host (pending 6 1) [.label 1]).delay (host (pending 6 1) [.label 1]) = .next t ∧
      t.hostPc = 1) ∧
    (∃ t, core.run (pending 6 0).delay (pending 6 0) = .next t ∧ t.hostPc = 0) ∧
    (pending 6 1).program.length ≤ (pending 6 1).hostPc :=
  ⟨next_with (fun t => t.hostPc = 1) (by decide), next_with (fun t => t.hostPc = 0) (by decide),
    by decide⟩

/-- The first and last word of a row, and reserved offsets at the edges of the rows. -/
theorem witness_WindowLayout : cfg.Legal ∧ (Reg.blobCt, 0xD0, 64) ∈ windowMap cfg ∧
    (0xD0 ≤ 0x10C ∧ 0x10C < 0xD0 + 64 ∧ 0x10C % 4 = 0) ∧ (Reg.dataIn, 0x100000, cfg.dataCap) ∈ windowMap cfg ∧
    (0x100000 ≤ 0x10003C ∧ 0x10003C < 0x100000 + cfg.dataCap) ∧
    (∀ off ∈ [0x030, 0x090, 0x0C8, 0x110, 0x100040, 0x2FFFFC, 0x300000], Reserved cfg off) ∧ 0x00A % 4 ≠ 0 := by
  refine ⟨by decide, by decide, by decide, by decide, by decide, ?_, by decide⟩
  unfold Reserved
  decide

theorem witness_IllegalAccessesAreBusErrors : idle.cfg.Legal ∧ Reserved idle.cfg 0x03C ∧ 0x00A % 4 ≠ 0 := by
  refine ⟨by decide, ?_, by decide⟩
  unfold Reserved
  decide

/-- Each clause: a write, a read, a branch not taken and one taken. -/
theorem witness_HostOperations : idle.cfg.Legal ∧ (∃ u, writeWindow 0x008 5 idle = some u) ∧
    (∃ v u, readWindow 0x004 idle = some (v, u) ∧ v &&& 0x1 = 0) ∧
    (∃ v u, readWindow 0x004 (host (pending 7 2) (opWait 1)) = some (v, u) ∧ v &&& 0x1 ≠ 0) ∧
    labelIndex (host (pending 7 2) (opWait 1)).program 1 = some 0 ∧
    labelIndex (host (pending 7 2) (opWait 1)).program 9 = none :=
  ⟨by decide, ⟨_, rfl⟩, ⟨_, _, rfl, by decide⟩, ⟨_, _, rfl, by decide⟩, by decide, by decide⟩

theorem witness_LabelIndexFindsTheLabel : labelIndex [.rd 0, .label 3] 3 = some 1 := by decide

/-- The last group, a byte count that is a multiple of 4 and one that is not, and the last word of a read. -/
theorem witness_PseudoOperationsExpand : 4 * 3 + 4 ≤ kek.toList.length ∧ kek.toList.length % 4 = 0 ∧
    (hex 6 0).toList.length % 4 ≠ 0 ∧ 4 * 0 + 4 ≤ (hex 6 0).toList.length ∧ 15 < 64 / 4 := by decide

/-- The last byte of a register, a byte of the word written, and a byte of another word. -/
theorem witness_ByteLanes : arrayByte idle .iv (4 * 1 + 3) = some 0xA6 ∧ arrayByte idle .blobCt (4 * 15 + 3) = some 0 ∧
    Reg.blobPt ∈ readWriteRegs ∧ 4 * 9 + 4 ≤ Reg.size idle.cfg .blobPt ∧
    arrayByte idle .blobPt 39 = some 0 ∧ arrayByte idle .blobPt 0 = some 0 ∧
    arrayByte (dataIn idle [7]) .dataIn 0 = some 7 := by decide

theorem witness_HostWriteIsReadBack : idle.cfg.Legal ∧ idle.busy = false ∧
    regAt idle.cfg 0x10003C = some (.dataIn, 15) ∧ Reg.dataIn ∈ readWriteRegs ∧
    regAt idle.cfg 0x00C = some (.ctxSel, 0) ∧ Reg.ctxSel ∈ readWriteRegs ∧
    regAt idle.cfg 0x200000 = some (.dataOut, 0) ∧ Reg.dataOut ∈ readOnlyRegs := by decide

theorem witness_WritesWhileBusyAreLost : (pending 7 1).busy = true ∧
    regAt (pending 7 1).cfg 0x000 = some (.cmd, 0) ∧ Reg.cmd ≠ .status ∧ regAt (pending 7 1).cfg 0x030 = none := by
  decide

/-- Idle; under a pending KWRAP an output, its padding words and a register that is none; under a pending CTR_CRYPT a
word of CTR16 that it does not write, and one that it does; an illegal pending word. -/
theorem witness_HostReads : regAt idle.cfg 0x0FC = some (.blobCt, 11) ∧ idle.busy = false ∧
    (pending 4 1).pending = some 4 ∧ decode 4 = .ok .kwrap ∧ Reg.blobCt ∈ outputRegs .kwrap ∧
    regAt idle.cfg 0x100 = some (.blobCt, 12) ∧ regAt idle.cfg 0x10C = some (.blobCt, 15) ∧
    Reg.skek ∉ outputRegs .kwrap ∧ regAt idle.cfg 0x080 = some (.ctr16, 0) ∧ regAt idle.cfg 0x08C = some (.ctr16, 3) ∧
    decode 7 = .ok .ctrCrypt ∧ Reg.ctr16 ∈ outputRegs .ctrCrypt ∧ regAt idle.cfg 0x20003C = some (.dataOut, 15) ∧
    (pending 8 1).pending = some 8 ∧ (decode 8).toOption = none ∧
    regAt (pending 8 1).cfg 0x004 = some (.status, 0) := by decide

theorem witness_AcceptanceAndCompletion : idle.busy = false ∧ (pending 7 1).pending = some 7 := by decide

/-- The boundary of the length check. -/
theorem witness_Crc32Result : { idle with len := 0x40 }.len.toNat ≤ idle.cfg.dataCap ∧
    idle.cfg.dataCap < { idle with len := 0x41 }.len.toNat := by decide

/-- Two states that agree on DATA_IN[0..1) and differ beyond and in the old CRC_RESULT, and the illegal length. -/
theorem witness_Crc32ReadsOnlyItsInput :
    let s := { dataIn idle [1, 2] with len := 1 }
    let s' := { dataIn idle [1, 3] with len := 1, kek := kek, crcResult := 7 }
    s.len = s'.len ∧ s.cfg = s'.cfg ∧ s.crcResult ≠ s'.crcResult ∧ s.len.toNat ≤ s.cfg.dataCap ∧
      s.cfg.dataCap < { s with len := 0x41 }.len.toNat ∧ s.bufByte 0x100001 ≠ s'.bufByte 0x100001 ∧
      ∀ k < s.len.toNat, s.bufByte (0x100000 + k) = s'.bufByte (0x100000 + k) := by
  refine ⟨rfl, rfl, by decide, by decide, by decide, by decide, ?_⟩
  intro k hk
  have : k = 0 := by simpa using hk
  subst this
  rfl

theorem witness_ScrambleIsSelfInverse : ∃ t, exec .scramble region = .next t ∧
    ∃ u, exec .scramble { t with kek := t.skek } = .next u := ⟨_, rfl, _, rfl⟩

/-- Both clauses at the boundary: END_ADDR = START_ADDR + 1, START_ADDR = FLASH_BASE, and START_ADDR = END_ADDR. -/
theorem witness_BuildBlobResult : rangeOk 0x60000000 0x60000001 0x60000000 = true ∧
    rangeOk region.startAddr region.endAddr region.cfg.flashBase = true ∧
    rangeOk 0x60001000 0x60001000 0x60000000 = false := by decide

/-- No failure, and a first failure on the first and on the last invocation. -/
theorem witness_KwrapResult : NoAesFailure idle 30 ∧ (failing [true]).aesDraws.draw Config.aesFault 0 = true ∧
    (∀ j < 29, (failing (List.replicate 29 false ++ [true])).aesDraws.draw Config.aesFault j = false) ∧
    (failing (List.replicate 29 false ++ [true])).aesDraws.draw Config.aesFault 29 = true :=
  ⟨idle_no_failure 30 (by decide) idle rfl, by decide, by decide, by decide⟩

/-- A block cipher with a decryption that is not the identity. -/
theorem witness_UnwrapInvertsWrap : ∀ b : Bytes 16, xorBytes (xorBytes b kek) kek = b := by
  intro b
  ext i h : 1
  simp [xorBytes]

theorem witness_SecondBlobSwapRestores : ∃ t u, exec .blobSwap { idle with blobCt := wrapped } = .next t ∧
    exec .blobSwap t = .next u := ⟨_, _, rfl, rfl⟩

theorem witness_BlobPaddingReadsZero : 12 ≤ 15 ∧ 15 < 16 := by decide

/-- One block, no block, and the full buffer. -/
theorem witness_CtrCryptResult : (0 : Word).toNat % 16 = 0 ∧ (16 : Word).toNat ≤ idle.cfg.dataCap ∧
    (16 : Word).toNat % 16 = 0 ∧ (0x40 : Word).toNat = idle.cfg.dataCap ∧ (0x40 : Word).toNat % 16 = 0 ∧
    NoAesFailure { idle with len := 0x40 } ({ idle with len := 0x40 }.len.toNat / 16) :=
  ⟨by decide, by decide, by decide, by decide, by decide, idle_no_failure 4 (by decide) _ rfl⟩

theorem witness_CounterAfterSuccess : ctrLengthOk idle.cfg 16 = true ∧ ctrLengthOk idle.cfg 0 = true ∧
    (∃ t, exec .ctrCrypt image = .next t) ∧ field State.err (exec .ctrCrypt image) = some none ∧
    field State.err (exec .ctrCrypt idle) = some none := by
  refine ⟨by decide, by decide, ⟨_, rfl⟩, ?_, ?_⟩ <;> decide

/-- Both disjuncts: above the capacity (a multiple of 16), and not a multiple of 16. -/
theorem witness_CtrCryptLengthError : idle.cfg.dataCap < { idle with len := 0x50 }.len.toNat ∧
    { idle with len := 20 }.len.toNat % 16 ≠ 0 := by decide

theorem witness_CtrCryptFailure :
    let s := { failing [false, true] with len := 32 }
    ctrLengthOk s.cfg s.len = true ∧ 1 < s.len.toNat / 16 ∧ (∀ j < 1, s.aesDraws.draw Config.aesFault j = false) ∧
      s.aesDraws.draw Config.aesFault 1 = true := by decide

theorem witness_CtrIsSelfInverse : (otfadCtr (fun _ b => b) [kek] imgKey kek 0 idle.aesDraws).out =
    some [xorBytes kek (wswap (effective kek 0))] ∧ ∀ k < [kek].length, idle.aesDraws.draw Config.aesFault k = false := by
  decide

theorem witness_CounterAddressFieldIsDead : [kek] ≠ [] ∧
    slice (hex 16 0x01020304050607080404040CFFFFFFFF) 0 12 = slice image.ctr16 0 12 ∧
    hex 16 0x01020304050607080404040CFFFFFFFF ≠ image.ctr16 ∧ ctrLengthOk image.cfg image.len = true ∧
    16 ≤ image.len.toNat := by decide

/-- Each error of R116. -/
theorem witness_ErrorsArePrecise :
    field State.err (exec .crc32 { idle with len := 0x41 }) = some (some .inputSizeMismatch) ∧
    field State.err (exec .kwrap (failing [true])) = some (some .blockCipherFailure) ∧
    field State.err (exec .buildBlob idle) = some (some .addressRangeInvalid) ∧
    field State.err (exec .ctrCrypt { failing [true] with len := 16 }) = some (some .blockCipherFailure) := by
  decide

theorem witness_ErrorsByCommand : ∃ t, exec .crc32 { idle with len := 0x41 } = .next t ∧
    t.err = some .inputSizeMismatch := ⟨_, rfl, by decide⟩

theorem witness_CommandFrame : (∃ t, exec .kwrap idle = .next t) ∧ ∃ t, exec .ctrCrypt image = .next t :=
  ⟨⟨_, rfl⟩, _, rfl⟩

/-- A byte of DATA_OUT that CTR_CRYPT changes: it held 0, and V5.2's first byte is 0x58. -/
theorem witness_DataOutOnlyFromCtrCrypt : cfg.Legal ∧ dataOutBase ≤ 0x200000 ∧
    { image with mem := image.mem.write 0x200000 0, pending := some 7 }.bufByte 0x200000 = 0 ∧
    field (fun t => t.mem.read 0x200000) (step
      { image with mem := image.mem.write 0x200000 0, pending := some 7 }) = some (some 0x58) := by decide +kernel

theorem witness_OnlyScrambleReadsKek : Instr.kwrap ≠ .scramble := by decide

theorem witness_PathsAreIndependent : NoAesFailure { idle with len := 16 } (30 + { idle with len := 16 }.len.toNat / 16) :=
  idle_no_failure 31 (by decide) _ rfl

/-- A stored write, a write to STATUS, one that is lost, and reads of CMD and of a buffer. -/
theorem witness_AccessesAreIdempotent : (0x008 : Nat) ≠ 0x000 ∧ (∃ t, writeWindow 0x008 5 idle = some t) ∧
    (∃ t, writeWindow 0x004 6 idle = some t) ∧ (∃ t, writeWindow 0x100000 5 idle = some t) ∧
    (∃ t, writeWindow 0x008 5 (pending 7 1) = some t) ∧ idle.busy = false ∧
    (∃ u, readWindow 0x000 idle = some (0, u)) ∧ ∃ v u, readWindow 0x20003C idle = some (v, u) :=
  ⟨by decide, ⟨_, rfl⟩, ⟨_, rfl⟩, ⟨_, rfl⟩, ⟨_, rfl⟩, rfl, ⟨_, rfl⟩, ⟨_, _, rfl⟩⟩

theorem witness_CrcTableHasTheSpecsEntries : 255 < 256 ∧ specCrcTable.length = 256 := by decide +kernel

/-- The byte that takes the counter and its neighbour, the last R and another. -/
theorem witness_WrapRoundFields : 7 < 8 ∧ 6 ≠ 7 ∧ (3 : Fin 5) ≠ 4 ∧ idle.aesDraws.draw Config.aesFault 0 = false := by
  decide

/-- The core of a run on test draws: every acceptance is followed by its engine step. -/
def prompt (s : State) : State := { s with delays := ⟨List.replicate 8 0, 0⟩ }

/-- Each event of a step, and none; for the wrap, see wrapThenSwap below. -/
theorem witness_BlobEventsTellBlobCt :
    field (blobEvent (pending 5 0)) (step (pending 5 0)) = some (some .swapped) ∧
    field (blobEvent (host idle [.rd 0x0FC])) (step (host idle [.rd 0x0FC])) = some (some .read) ∧
    field (blobEvent { idle with resetPin := true }) (step { idle with resetPin := true }) = some (some .cleared) ∧
    field (blobEvent (pending 6 0)) (step (pending 6 0)) = some none ∧
    field (blobEvent { failing [true] with pending := some 4 }) (step { failing [true] with pending := some 4 }) =
      some none := by decide

/-- R135: the ways to break the duty (wrapped over, read raw, swapped twice, not swapped), and ways to keep it. -/
theorem test_swap_duty :
    BlobStand.after .noWrap [.wrapped, .wrapped, .swapped] = none ∧
    BlobStand.after .noWrap [.wrapped, .read, .swapped] = none ∧
    BlobStand.after .noWrap [.wrapped, .swapped, .swapped] = none ∧
    BlobStand.after .noWrap [.wrapped] = some .raw ∧
    BlobStand.after .noWrap [.wrapped, .swapped, .read] = some .swapped ∧
    BlobStand.after .noWrap [.wrapped, .swapped, .wrapped, .swapped] = some .swapped ∧
    BlobStand.after .noWrap [.wrapped, .cleared, .read] = some .noWrap := by decide

/-- A swap that is written to CMD while busy is lost and counts for nothing: one BLOB_SWAP is performed. -/
theorem test_lost_swap_is_no_event : blobEvents 4 (prompt (host (pending 5 1) (opCmd .blobSwap ++ [.rd 0x0D0]))) =
    [.swapped, .read] := by decide

/-- A program that writes its operands on a core that is not fresh from reset meets premise (b); reset values are not
needed. Without its writes it does not. -/
theorem test_operands_written :
    let s := prompt { idle with ctr8 := hex 8 0xFF, baseAddr := 5, kek := kek }
    OperandsKnown 6 (host s (opWrb .ctr8 (hex 8 0x0102030405060708).toList ++ [.wr 0x024 0x60001000] ++
      opCmd .extCtr)) ∧
    ¬ OperandsKnown 6 (host s (opCmd .extCtr)) ∧ ¬ OperandsKnown 6 (host s ([.wr 0x070 1, .wr 0x024 2] ++ opCmd .extCtr)) := by
  unfold OperandsKnown
  decide

/-- A command's result counts as written, here SKEK from SCRAMBLE for a KWRAP with a failing cipher, whose other
operands have their reset values. -/
theorem test_result_counts_as_written :
    OperandsKnown 8 (host (prompt { failing [true] with skek := kek }) (opCmd .scramble ++ opRun .kwrap 1)) ∧
    ¬ OperandsKnown 8 (host (prompt { failing [true] with skek := kek }) (opRun .kwrap 1)) := by
  unfold OperandsKnown
  decide

/-- Premise (c): CRC32 over five bytes needs two words of DATA_IN. -/
theorem test_data_in_written :
    DataInWrittenByProgram 5 (host (prompt { idle with len := 5 }) ([.wr 0x100000 1, .wr 0x100004 2] ++ opCmd .crc32)) ∧
    ¬ DataInWrittenByProgram 5 (host (prompt { idle with len := 5 }) ([.wr 0x100000 1] ++ opCmd .crc32)) := by
  unfold DataInWrittenByProgram
  decide

/-- A pending KWRAP whose host swaps the blob next. -/
def wrapThenSwap : State := prompt (host (pending 4 0) (opCmd .blobSwap))

/-- The state after its engine step, which writes the blob c. -/
def afterWrap (c : Bytes 48) : State :=
  succeed { wrapThenSwap with aesDraws := ⟨List.replicate 34 false, 30⟩, blobCt := c }

/-- The state after BLOB_SWAP's word has been written to CMD. -/
def afterIssue (c : Bytes 48) : State := hostNext (accept 5 (afterWrap c))

/-- The engine step of a KWRAP with no failure writes some blob, whichever it is. -/
theorem wrapThenSwap_first : ∃ c, step wrapThenSwap = .next (afterWrap c) := by
  refine ⟨pureWrap (cipherFn wrapThenSwap.cfg.cipher) wrapThenSwap.blobPt wrapThenSwap.iv wrapThenSwap.skek, ?_⟩
  show exec .kwrap wrapThenSwap = _
  rw [exec, execKwrap, wrap, wrapRounds_ok _ _ _ _ _
    (by rw [roundOrder_length]; exact idle_no_failure 30 (by decide) _ rfl)]
  rfl

theorem wrapThenSwap_second (c : Bytes 48) : step (afterWrap c) = .next (afterIssue c) := by
  have hw : busWrite ((afterWrap c).cfg.blockBase + 0) 5 (afterWrap c) = some (accept 5 (afterWrap c)) := by
    rw [busWrite_base_add]; rfl
  have ho : (afterWrap c).program[(afterWrap c).hostPc]? = some (.wr 0x000 5) := rfl
  rw [step, if_neg (show ¬ (afterWrap c).resetPin = true from Bool.false_ne_true)]
  simp only [show (afterWrap c).pending = none from rfl, hostStep, ho, hostOp, hw, afterIssue]

theorem wrapThenSwap_third (c : Bytes 48) :
    step (afterIssue c) = .next (succeed { afterIssue c with blobCt := swapBlob c }) := rfl

/-- A run with a KWRAP and its one swap, and the event of its first step. -/
theorem witness_SwappedOnceLeavesTheSwappedWrap :
    field (blobEvent wrapThenSwap) (step wrapThenSwap) = some (some .wrapped) ∧
    ∃ t, core.run 3 wrapThenSwap = .next t ∧ BlobStand.after .noWrap (blobEvents 3 wrapThenSwap) = some .swapped ∧
      SwappedOnce 3 wrapThenSwap := by
  obtain ⟨c, h⟩ := wrapThenSwap_first
  have he : BlobStand.after .noWrap (blobEvents 3 wrapThenSwap) = some .swapped := by
    rw [blobEvents_next h, blobEvents_next (wrapThenSwap_second c), blobEvents_next (wrapThenSwap_third c)]
    rfl
  refine ⟨by rw [h]; rfl, succeed { afterIssue c with blobCt := swapBlob c }, ?_, he, .inr he⟩
  rw [core_run_next 2 h, core_run_next 1 (wrapThenSwap_second c), core_run_next 0 (wrapThenSwap_third c),
    core_run_zero]

theorem witness_FromResetMeetsOperandPremise : FromReset (host idle (opRun .extCtr 1)) ∧ FromReset State.reset :=
  ⟨rfl, rfl⟩

theorem witness_WrittenInputIsStored :
    let s := host (prompt { idle with len := 5 }) ([.wr 0x100000 1, .wr 0x100004 2] ++ opCmd .crc32)
    DataInWrittenByProgram 5 s ∧ field performing (core.run 3 s) = some (some .crc32) ∧ 3 < 5 ∧
      field (fun u => decide (u.len.toNat ≤ u.cfg.dataCap)) (core.run 3 s) = some true := by
  refine ⟨test_data_in_written.1, ?_, by decide, ?_⟩ <;> decide

end Sys2Proof.Tests
end

/-! SUPPORT. What one step of the machine does (00_scope.md R14, R15): an equation per kind of step, what a command and
a host access leave alone, and from these the invariant and the bounded wait for the engine. -/

namespace Sys2Proof.Machine

/-! ### An equation per kind of step -/

theorem step_idle {s : State} (hr : s.resetPin = false) (hp : s.pending = none) : step s = hostStep s := by
  simp [step, hr, hp]

theorem step_engine {s : State} {w : Word} (hr : s.resetPin = false) (hp : s.pending = some w) (hd : s.delay = 0) :
    step s = engineStep w s := by
  simp [step, hr, hp, hd]

theorem step_waiting {s : State} {w : Word} {d : Nat} (hr : s.resetPin = false) (hp : s.pending = some w)
    (hd : s.delay = d + 1) : step s = hostStep { s with delay := d } := by
  simp [step, hr, hp, hd]

theorem hostStep_op {s : State} {op : HostOp} (h : s.program[s.hostPc]? = some op) : hostStep s = hostOp op s := by
  simp [hostStep, h]

theorem hostStep_ended {s : State} (h : s.program.length ≤ s.hostPc) : hostStep s = .next s := by
  simp [hostStep, List.getElem?_eq_none h]

theorem decode_encode (i : Instr) : decode (encode i) = .ok i := by
  cases i <;> rfl

theorem withFetchWord_pending (s : State) (w : Word) : (s.withFetchWord 32 w.toNat).pending = some w := by
  show some (BitVec.ofNat 32 (w.toNat % 2 ^ 32)) = some w
  rw [Nat.mod_eq_of_lt w.isLt, BitVec.ofNat_toNat, BitVec.setWidth_eq]

/-! ### What a command changes -/

theorem ctrLengthOk_iff {cfg : Config} {len : Word} :
    ctrLengthOk cfg len = true ↔ len.toNat ≤ cfg.dataCap ∧ len.toNat % 16 = 0 := by
  simp [ctrLengthOk]

/-- An output of the block loop has one block for each input block. -/
theorem otfadCtr_out_length {enc : Bytes 16 → Bytes 16 → Bytes 16} {pt blocks : List (Bytes 16)} {key c : Bytes 16}
    {base : Word} {d : Draws Bool} (h : (otfadCtr enc pt key c base d).out = some blocks) :
    blocks.length = pt.length := by
  rcases draws_ok_or_first_failure d pt.length with hok | ⟨k, hk, hok, hf⟩
  · rw [otfadCtr, ctrBlocks_ok _ _ _ _ _ _ _ hok] at h
    injection h with h
    simp [← h]
  · rw [otfadCtr, ctrBlocks_fail _ _ _ _ _ _ _ _ hk hok hf] at h
    cases h

/-- t is s with a command completed, which wrote at most the registers of the column 'writes' of R64, memory, and the
draws of AES. -/
def Performed (s t : State) : Prop :=
  t = complete t.err { s with
    crcResult := t.crcResult, skek := t.skek, blobPt := t.blobPt, blobCt := t.blobCt, ctr16 := t.ctr16
    mem := t.mem, aesDraws := t.aesDraws }

/-- Whatever values the outputs get, completing with them is a performed command. -/
theorem performed_complete (s : State) (e : Option CmdError) (crc : Word) (skek : Bytes 16) (blobPt : Bytes 40)
    (blobCt : Bytes 48) (ctr16 : Bytes 16) (mem : Memory) (draws : Draws Bool) :
    Performed s (complete e { s with
      crcResult := crc, skek := skek, blobPt := blobPt, blobCt := blobCt, ctr16 := ctr16
      mem := mem, aesDraws := draws }) := rfl

section
variable {s t : State}

theorem Performed.idle (h : Performed s t) : t.busy = false := by rw [h, complete_busy]

theorem Performed.cfg (h : Performed s t) : t.cfg = s.cfg := by rw [h, complete_cfg]

theorem Performed.program (h : Performed s t) : t.program = s.program := by rw [h, complete_program]

theorem Performed.trace (h : Performed s t) : t.trace = s.trace := by rw [h, complete_trace]

end

theorem execCrc32_performed {s t : State} (h : execCrc32 s = .next t) : Performed s t ∧ t.mem = s.mem := by
  unfold execCrc32 at h
  split at h <;> (cases h; exact ⟨performed_complete .., rfl⟩)

theorem execBuildBlob_performed {s t : State} (h : execBuildBlob s = .next t) : Performed s t ∧ t.mem = s.mem := by
  unfold execBuildBlob at h
  split at h <;> (cases h; exact ⟨performed_complete .., rfl⟩)

theorem execKwrap_performed {s t : State} (h : execKwrap s = .next t) : Performed s t ∧ t.mem = s.mem := by
  unfold execKwrap at h
  simp only at h
  split at h <;> (cases h; exact ⟨performed_complete .., rfl⟩)

/-- CTR_CRYPT writes memory only on success, in DATA_OUT[0..LEN) and with a legal LEN (R107, R108). -/
theorem execCtrCrypt_performed {s t : State} (h : execCtrCrypt s = .next t) :
    Performed s t ∧ (t.mem = s.mem ∨ ctrLengthOk s.cfg s.len = true ∧
      ∃ bs : List Byte, bs.length = s.len.toNat ∧ t.mem = s.mem.writeBytes dataOutBase bs) := by
  unfold execCtrCrypt at h
  simp only at h
  split at h
  · rename_i hlen
    split at h
    · cases h
      exact ⟨performed_complete .., .inl rfl⟩
    · rename_i blocks hout
      have hmod := (ctrLengthOk_iff.mp hlen).2
      have hbytes : (blocks.flatMap Vector.toList).length = s.len.toNat := by
        rw [flatMap_toList_length, otfadCtr_out_length hout, inBlocks_length]
        omega
      cases h
      exact ⟨performed_complete .., .inr ⟨hlen, _, hbytes, rfl⟩⟩
  · cases h
    exact ⟨performed_complete .., .inl rfl⟩

/-- Everything a command can do: it completes, and only CTR_CRYPT writes memory. -/
theorem exec_performed {i : Instr} {s t : State} (h : exec i s = .next t) :
    Performed s t ∧ (t.mem = s.mem ∨ i = .ctrCrypt ∧ ctrLengthOk s.cfg s.len = true ∧
      ∃ bs : List Byte, bs.length = s.len.toNat ∧ t.mem = s.mem.writeBytes dataOutBase bs) := by
  cases i with
  | crc32 => exact (execCrc32_performed h).imp_right .inl
  | scramble => cases h; exact ⟨performed_complete .., .inl rfl⟩
  | buildBlob => exact (execBuildBlob_performed h).imp_right .inl
  | kwrap => exact (execKwrap_performed h).imp_right .inl
  | blobSwap => cases h; exact ⟨performed_complete .., .inl rfl⟩
  | extCtr => cases h; exact ⟨performed_complete .., .inl rfl⟩
  | ctrCrypt =>
    obtain ⟨ht, hm⟩ := execCtrCrypt_performed h
    exact ⟨ht, hm.imp_right (⟨rfl, ·⟩)⟩

/-- The same for an engine step, of a legal word or an illegal one. -/
theorem engineStep_performed {w : Word} {s t : State} (h : engineStep w s = .next t) :
    Performed s t ∧ (t.mem = s.mem ∨ decode w = .ok .ctrCrypt ∧ ctrLengthOk s.cfg s.len = true ∧
      ∃ bs : List Byte, bs.length = s.len.toNat ∧ t.mem = s.mem.writeBytes dataOutBase bs) := by
  cases hw : decode w with
  | error e =>
    rw [engineStep_illegal s hw] at h
    cases h
    exact ⟨performed_complete .., .inl rfl⟩
  | ok i =>
    rw [engineStep_command s hw] at h
    obtain ⟨ht, hm⟩ := exec_performed h
    exact ⟨ht, hm.imp_right fun ⟨hi, hrest⟩ => ⟨hi ▸ rfl, hrest⟩⟩

/-! ### What a host access leaves alone -/

theorem writeWindow_frame {off : Nat} {w : Word} {s u : State} (h : writeWindow off w s = some u) :
    u.cfg = s.cfg ∧ u.program = s.program ∧ u.trace = s.trace := by
  rcases writeWindow_some h with ⟨-, rfl⟩ | ⟨-, -, rfl⟩ | ⟨-, -, r, k, -, -, rfl⟩
  · exact ⟨rfl, rfl, rfl⟩
  · exact ⟨rfl, rfl, rfl⟩
  · obtain ⟨hcfg, hprogram, -, htrace, -⟩ := writeReg_frame r k w s
    exact ⟨hcfg, hprogram, htrace⟩

/-- While a command is pending no host write changes PENDING, the delay or the reset input (R59). -/
theorem writeWindow_busy {off : Nat} {w : Word} {s u : State} (hb : s.busy = true)
    (h : writeWindow off w s = some u) :
    u.pending = s.pending ∧ u.delay = s.delay ∧ u.resetPin = s.resetPin := by
  rcases writeWindow_some h with ⟨-, rfl⟩ | ⟨-, -, rfl⟩ | ⟨-, hidle, -⟩
  · exact ⟨rfl, rfl, rfl⟩
  · exact ⟨rfl, rfl, rfl⟩
  · rw [hb] at hidle
    cases hidle

theorem hostStep_frame {s t : State} (h : hostStep s = .next t) :
    t.cfg = s.cfg ∧ t.program = s.program ∧ ∃ l, t.trace = s.trace ++ l := by
  obtain ⟨u, hu, l, pc, rfl⟩ := hostStep_effect h
  rcases hu with rfl | rfl | ⟨off, w, -, hw⟩
  · exact ⟨rfl, rfl, l, rfl⟩
  · exact ⟨rfl, rfl, l, rfl⟩
  · obtain ⟨hcfg, hprogram, htrace⟩ := writeWindow_frame hw
    exact ⟨hcfg, hprogram, l, by rw [htrace]⟩

/-- A host step leaves a pending command pending. -/
theorem hostStep_busy {s t : State} (hb : s.busy = true) (h : hostStep s = .next t) :
    t.pending = s.pending ∧ t.delay = s.delay ∧ t.resetPin = s.resetPin := by
  obtain ⟨u, hu, l, pc, rfl⟩ := hostStep_effect h
  rcases hu with rfl | rfl | ⟨off, w, -, hw⟩
  · exact ⟨rfl, rfl, rfl⟩
  · exact ⟨rfl, rfl, rfl⟩
  · obtain ⟨hpending, hdelay, hpin⟩ := writeWindow_busy hb hw
    exact ⟨hpending, hdelay, hpin⟩

/-! ### Runs -/

theorem core_run_one (s : State) : core.run 1 s = step s := by
  cases h : step s with
  | next t => exact core_run_next 0 h
  | fault r => exact core_run_fault 0 h
  | refused r => exact core_run_refused 0 h

/-- A run that answers a state after n + 1 steps took its first step. -/
theorem core_run_succ_next {n : Nat} {s t : State} (h : core.run (n + 1) s = .next t) :
    ∃ u, step s = .next u ∧ core.run n u = .next t := by
  cases hs : step s with
  | next u => exact ⟨u, rfl, by rw [← core_run_next n hs, h]⟩
  | fault r => rw [core_run_fault n hs] at h; cases h
  | refused r => rw [core_run_refused n hs] at h; cases h

/-- Host steps that answer next states run the delay down and leave the command pending (R15, R139). -/
theorem core_run_delay {d : Nat} {s t : State} {w : Word} (hr : s.resetPin = false) (hp : s.pending = some w)
    (hd : s.delay = d) (h : core.run d s = .next t) :
    t.pending = some w ∧ t.delay = 0 ∧ t.resetPin = false := by
  induction d generalizing s with
  | zero =>
    cases h
    exact ⟨hp, hd, hr⟩
  | succ d ih =>
    obtain ⟨u, hu, hrun⟩ := core_run_succ_next h
    rw [step_waiting hr hp hd] at hu
    obtain ⟨hup, hud, hur⟩ := hostStep_busy (s := { s with delay := d }) (busy_of_some hp) hu
    exact ih (hur.trans hr) (hup.trans hp) hud hrun

/-- With an ended program the run stays at the state but for the delay, and ends in the engine step. -/
theorem core_run_engine_of_ended {d : Nat} {s : State} {w : Word} (hr : s.resetPin = false)
    (hp : s.pending = some w) (hend : s.program.length ≤ s.hostPc) (hd : s.delay = d) :
    core.run (d + 1) s = engineStep w { s with delay := 0 } := by
  induction d generalizing s with
  | zero =>
    rw [core_run_one, step_engine hr hp hd, ← hd]
  | succ d ih =>
    have hstep : step s = .next { s with delay := d } := by
      rw [step_waiting hr hp hd]
      exact hostStep_ended hend
    rw [core_run_next (d + 1) hstep]
    exact ih (s := { s with delay := d }) hr hp hend rfl

end Sys2Proof.Machine

/-! ### The invariant -/

namespace Sys2Proof.Safety

open Sys2Proof.Machine

/-- The invariant reads five fields only. -/
theorem Inv.congr {s t : State} (hs : Inv s) (hmem : t.mem = s.mem) (hpending : t.pending = s.pending)
    (hdone : t.done = s.done) (herr : t.err = s.err) (hcfg : t.cfg = s.cfg) : Inv t := by
  have hbusy : t.busy = s.busy := by rw [State.busy, State.busy, hpending]
  exact {
    memWf := hmem ▸ hs.memWf
    memInBuffers := by rw [hmem, hcfg]; exact hs.memInBuffers
    busyNotDone := by rw [hbusy, hdone]; exact hs.busyNotDone
    busyNoError := by rw [hbusy, herr]; exact hs.busyNoError
    cfgLegal := hcfg ▸ hs.cfgLegal }

/-- With no command pending, the invariant is about memory and the parameters. -/
theorem Inv.of_idle {s : State} (hidle : s.busy = false) (hwf : s.mem.wf)
    (hin : ∀ c ∈ s.mem, InBuffers s.cfg c.1) (hlegal : s.cfg.Legal) : Inv s where
  memWf := hwf
  memInBuffers := hin
  busyNotDone hb := by rw [hidle] at hb; cases hb
  busyNoError hb := by rw [hidle] at hb; cases hb
  cfgLegal := hlegal

theorem inv_reset : Inv State.reset :=
  .of_idle rfl reset_mem_wf (fun _ hc => nomatch hc) (by decide)

theorem Inv.coreReset {s : State} (hs : Inv s) : Inv (coreReset s) :=
  .of_idle rfl reset_mem_wf (fun _ hc => nomatch hc) hs.cfgLegal

/-- Bytes written into the buffers leave memory inside the buffers. -/
theorem writeBytes_inBuffers {cfg : Config} {m : Memory} {a : Nat} {bs : List Byte}
    (hm : ∀ c ∈ m, InBuffers cfg c.1) (hw : ∀ b, a ≤ b → b < a + bs.length → InBuffers cfg b) :
    ∀ c ∈ m.writeBytes a bs, InBuffers cfg c.1 := by
  intro c hc
  rcases Memory.mem_writeBytes bs m a c hc with ⟨hlow, hhigh⟩ | hc
  · exact hw c.1 hlow hhigh
  · exact hm c hc

theorem Inv.clearStatus {s : State} (hs : Inv s) (w : Word) : Inv (clearStatus w s) where
  memWf := hs.memWf
  memInBuffers := hs.memInBuffers
  busyNotDone hb := by rw [clearStatus_done, hs.busyNotDone hb, Bool.false_and]
  busyNoError hb := hs.busyNoError hb
  cfgLegal := hs.cfgLegal

theorem Inv.accept {s : State} (hs : Inv s) (w : Word) : Inv (accept w s) where
  memWf := hs.memWf
  memInBuffers := hs.memInBuffers
  busyNotDone _ := accept_done w s
  busyNoError _ := accept_err w s
  cfgLegal := hs.cfgLegal

/-- A word of DATA_IN that the window lists lies in the buffer, so its write keeps the invariant (R47). -/
theorem Inv.writeReg_dataIn {off k : Nat} {w : Word} {s : State} (hs : Inv s) (hidle : s.busy = false)
    (h : regAt s.cfg off = some (.dataIn, k)) : Inv (writeReg .dataIn k w s) := by
  have hword : 4 * k + 4 ≤ s.cfg.dataCap := regAt_word_inside hs.cfgLegal h
  refine .of_idle hidle (State.memWrite_wf _ _ _ _ hs.memWf) ?_ hs.cfgLegal
  have hin : ∀ b, dataInBase + 4 * k ≤ b → b < dataInBase + 4 * k + (le32 w).toList.length →
      InBuffers s.cfg b := by
    intro b hlow hhigh
    rw [Vector.length_toList] at hhigh
    exact .inl ⟨by omega, by omega⟩
  exact writeBytes_inBuffers hs.memInBuffers hin

/-- A write to a listed register while idle keeps the invariant. -/
theorem Inv.writeReg {off k : Nat} {w : Word} {r : Reg} {s : State} (hs : Inv s) (hidle : s.busy = false)
    (h : regAt s.cfg off = some (r, k)) : Inv (writeReg r k w s) := by
  by_cases hcmd : r = .cmd
  · subst hcmd; exact hs.accept w
  by_cases hstatus : r = .status
  · subst hstatus; exact hs.clearStatus w
  by_cases hdata : r = .dataIn
  · subst hdata; exact hs.writeReg_dataIn hidle h
  · obtain ⟨hpending, hdone, -, herr⟩ := writeReg_status k w s hcmd hstatus
    exact hs.congr (writeReg_mem k w s hdata) hpending hdone herr (writeReg_frame r k w s).1

theorem Inv.writeWindow {off : Nat} {w : Word} {s u : State} (hs : Inv s) (h : writeWindow off w s = some u) :
    Inv u := by
  rcases writeWindow_some h with ⟨-, rfl⟩ | ⟨-, -, rfl⟩ | ⟨-, hidle, r, k, hr, -, rfl⟩
  · exact hs.clearStatus w
  · exact hs.congr rfl rfl rfl rfl rfl
  · exact hs.writeReg hidle hr

theorem Inv.hostStep {s t : State} (hs : Inv s) (h : hostStep s = .next t) : Inv t := by
  obtain ⟨u, hu, l, pc, rfl⟩ := hostStep_effect h
  have hu : Inv u := by
    rcases hu with rfl | rfl | ⟨off, w, -, hw⟩
    · exact hs
    · exact hs.congr rfl rfl rfl rfl rfl
    · exact hs.writeWindow hw
  exact hu.congr rfl rfl rfl rfl rfl

/-- The engine step ends idle, and what it stores lies in DATA_OUT. -/
theorem Inv.engineStep {w : Word} {s t : State} (hs : Inv s) (h : engineStep w s = .next t) : Inv t := by
  obtain ⟨ht, hmem⟩ := engineStep_performed h
  have hidle := ht.idle
  have hcfg := ht.cfg
  have hlegal : t.cfg.Legal := hcfg ▸ hs.cfgLegal
  rcases hmem with hmem | ⟨-, hlen, bs, hbs, hmem⟩
  · exact .of_idle hidle (hmem ▸ hs.memWf) (by rw [hmem, hcfg]; exact hs.memInBuffers) hlegal
  · have hcap := (ctrLengthOk_iff.mp hlen).1
    refine .of_idle hidle (hmem ▸ Memory.writeBytes_wf _ _ _ hs.memWf) ?_ hlegal
    rw [hmem, hcfg]
    exact writeBytes_inBuffers hs.memInBuffers fun b hlow hhigh => .inr ⟨hlow, by omega⟩

theorem Inv.step {s t : State} (hs : Inv s) (h : step s = .next t) : Inv t := by
  rcases step_cases h with ⟨-, rfl⟩ | ⟨-, -, h⟩ | ⟨-, w, -, -, h⟩ | ⟨-, w, d, -, -, h⟩
  · exact hs.coreReset
  · exact hs.hostStep h
  · exact hs.engineStep h
  · have hd : Inv { s with delay := d } := hs.congr rfl rfl rfl rfl rfl
    exact hd.hostStep h

end Sys2Proof.Safety

/-! ### The statements of 00_scope.md -/

namespace Sys2Proof.Claims

open Sys2Proof.Machine Sys2Proof.Safety

/-- Settles O9: each kind of step keeps the invariant, by step_cases. -/
theorem stepKeepsInvariant : Obligations.StepKeepsInvariant :=
  fun _ _ hs h => hs.step h

/-- Settles O10: the frame of each kind of step; only a host read appends to the trace. -/
theorem stepKeepsParametersAndProgram : Obligations.StepKeepsParametersAndProgram := by
  unfold Obligations.StepKeepsParametersAndProgram
  intro s t h
  rcases step_cases h with ⟨-, rfl⟩ | ⟨-, -, h⟩ | ⟨-, w, -, -, h⟩ | ⟨-, w, d, -, -, h⟩
  · exact ⟨rfl, rfl, [], by rw [coreReset_trace, List.append_nil]⟩
  · exact hostStep_frame h
  · obtain ⟨ht, -⟩ := engineStep_performed h
    exact ⟨ht.cfg, ht.program, [], by rw [ht.trace, List.append_nil]⟩
  · exact hostStep_frame (s := { s with delay := d }) h

/-- Settles O14, by induction on the delay. -/
theorem engineIsReached : Obligations.EngineIsReached := by
  unfold Obligations.EngineIsReached
  refine ⟨fun s t w hr hp h => ?_, fun s w hr hp hend => core_run_engine_of_ended hr hp hend rfl⟩
  obtain ⟨htp, htd, htr⟩ := core_run_delay hr hp rfl h
  exact ⟨htp, htd, htr, step_engine htr htp htd⟩

/-- Settles O4: the step is the engine step, and the engine step of a legal word is exec. -/
theorem stepRunsPendingCommand : Obligations.StepRunsPendingCommand := by
  unfold Obligations.StepRunsPendingCommand
  have hrun : ∀ (s : State) (w : Word) (i : Instr), s.resetPin = false → s.pending = some w → s.delay = 0 →
      decode w = .ok i → step s = exec i s := by
    intro s w i hr hp hd hw
    rw [step_engine hr hp hd, engineStep_command s hw]
  exact ⟨hrun, fun s i => hrun _ (encode i) i rfl (withFetchWord_pending s (encode i)) rfl (decode_encode i)⟩

/-- Settles O5, by the equations of step and hostStep. -/
theorem stepMovesHostWhileWaiting : Obligations.StepMovesHostWhileWaiting := by
  unfold Obligations.StepMovesHostWhileWaiting
  exact fun s hr => ⟨step_idle hr, fun _ _ => step_waiting hr, fun _ => hostStep_op, hostStep_ended⟩

/-- Settles O8: the base case of O9. -/
theorem invariantAtReset : Obligations.InvariantAtReset := inv_reset

end Sys2Proof.Claims

/-! SUPPORT. The registers of 10_state.md as the host meets them: STATUS and its bits over every step, what a host write
changes of the window's words, and which bytes of DATA_OUT a step leaves alone. -/

namespace Sys2Proof.Machine

/-! ### What a host write answers -/

theorem writeWindow_status_eq (w : Word) (s : State) : writeWindow 0x004 w s = some (clearStatus w s) := rfl

theorem writeWindow_idle_eq {off k : Nat} {r : Reg} {w : Word} {s : State} (hreg : regAt s.cfg off = some (r, k))
    (hr : r ≠ .status) (hb : s.busy = false) : writeWindow off w s = some (writeReg r k w s) := by
  simp [writeWindow, hreg, hr, hb]

theorem writeWindow_busy_eq {off k : Nat} {r : Reg} {w : Word} {s : State} (hreg : regAt s.cfg off = some (r, k))
    (hr : r ≠ .status) (hb : s.busy = true) : writeWindow off w s = some (loseWrite s) := by
  simp [writeWindow, hreg, hr, hb]

/-! ### OVR over a step (R20, R59) -/

theorem Performed.pending {s t : State} (h : Performed s t) : t.pending = none := by rw [h, complete_pending]

theorem Performed.done {s t : State} (h : Performed s t) : t.done = true := by rw [h, complete_done]

theorem Performed.ovr {s t : State} (h : Performed s t) : t.ovr = s.ovr := by rw [h, complete_ovr]

theorem Performed.resets {s t : State} (h : Performed s t) : t.resets = s.resets := by rw [h, complete_resets]

theorem writeReg_ovr {r : Reg} (k : Nat) (w : Word) (s : State) (hr : r ≠ .status) :
    (writeReg r k w s).ovr = s.ovr := by
  by_cases hc : r = .cmd
  · rw [hc]; rfl
  · obtain ⟨-, -, hovr, -⟩ := writeReg_status k w s hc hr
    exact hovr

/-- How a write of v at an offset takes OVR from s to t: STATUS clears it where bit 2 of v is 1, and a write to anything
else while a command is pending sets it. -/
def OvrWritten (off : Nat) (v : Word) (s t : State) : Prop :=
  (off = 0x004 ∧ t.ovr = (s.ovr && !v.getLsbD 2)) ∨ (off ≠ 0x004 ∧ s.busy = true ∧ t.ovr = true)

theorem writeWindow_ovr {off : Nat} {w : Word} {s u : State} (h : writeWindow off w s = some u) :
    u.ovr = s.ovr ∨ OvrWritten off w s u := by
  rcases writeWindow_some h with ⟨hoff, rfl⟩ | ⟨hoff, hb, rfl⟩ | ⟨-, -, r, k, -, hr, rfl⟩
  · exact .inr (.inl ⟨hoff, rfl⟩)
  · exact .inr (.inr ⟨hoff, hb, rfl⟩)
  · exact .inl (writeReg_ovr k w s hr)

theorem hostStep_ovr {s t : State} (h : hostStep s = .next t) :
    t.ovr = s.ovr ∨ ∃ off v, s.program[s.hostPc]? = some (.wr off v) ∧ OvrWritten off v s t := by
  obtain ⟨u, hu, l, pc, rfl⟩ := hostStep_effect h
  rcases hu with rfl | rfl | ⟨off, w, hop, hw⟩
  · exact .inl rfl
  · exact .inl rfl
  · exact (writeWindow_ovr hw).imp_right fun hovr => ⟨off, w, hop, hovr⟩

/-- Everything a step can do to OVR: a reset clears it, a host write may clear or set it, and nothing else moves it. -/
theorem step_ovr {s t : State} (h : step s = .next t) :
    (s.resetPin = true ∧ t.ovr = false) ∨ t.ovr = s.ovr ∨
    ∃ off v, s.program[s.hostPc]? = some (.wr off v) ∧ OvrWritten off v s t := by
  rcases step_cases h with ⟨hr, rfl⟩ | ⟨-, -, h⟩ | ⟨-, w, -, -, h⟩ | ⟨-, w, d, -, -, h⟩
  · exact .inl ⟨hr, rfl⟩
  · exact .inr (hostStep_ovr h)
  · exact .inr (.inl (engineStep_performed h).1.ovr)
  · exact .inr (hostStep_ovr (s := { s with delay := d }) h)

/-! ### The bits of STATUS (R20) -/

theorem ofBool_getLsbD (b : Bool) (j : Nat) : (BitVec.ofBool b).getLsbD j = (decide (j = 0) && b) := by
  cases b <;> simp [BitVec.getLsbD_one]

/-- Bit i of STATUS: the fields stand at 0, 1, 2 and [11:8], and the reserved bits between and above them are 0. -/
theorem statusWord_getLsbD (s : State) (i : Nat) : s.statusWord.getLsbD i =
    if i = 0 then s.busy else if i = 1 then s.done else if i = 2 then s.ovr else
    if i < 8 then false else if i < 12 then (errCode s.err).getLsbD (i - 8) else false := by
  simp only [State.statusWord, BitVec.getLsbD_append, ofBool_getLsbD, BitVec.getLsbD_zero]
  grind

theorem statusWord_fields (s : State) : s.statusWord.extractLsb' 3 5 = 0 ∧
    s.statusWord.extractLsb' 8 4 = errCode s.err ∧ s.statusWord.extractLsb' 12 20 = 0 := by
  refine ⟨?_, ?_, ?_⟩ <;>
  · apply BitVec.eq_of_getLsbD_eq
    intro i hi
    simp only [BitVec.getLsbD_extractLsb', statusWord_getLsbD]
    grind

/-- The bits of STATUS that a host write can clear, DONE and OVR, are bits 1 and 2. -/
theorem clearMask_getLsbD : ∀ i < 32, (0x6 : Word).getLsbD i = (decide (i = 1) || decide (i = 2)) := by
  decide

/-- A write to STATUS clears DONE and OVR where the written bit is 1, and keeps every other bit (R20). -/
theorem clearStatus_statusWord (w : Word) (s : State) :
    (clearStatus w s).statusWord = s.statusWord &&& ~~~(w &&& 0x6) := by
  apply BitVec.eq_of_getLsbD_eq
  intro i hi
  simp only [BitVec.getLsbD_and, BitVec.getLsbD_not, statusWord_getLsbD, clearMask_getLsbD i hi]
  by_cases hdone : i = 1
  · simp [hdone]
  · by_cases hovr : i = 2
    · simp [hovr]
    · simp [hdone, hovr, hi, State.busy]

/-! ### The words of the window after a host write (R21 to R40, R50) -/

/-- Keeping the low n bits of a word is masking it. -/
theorem setWidth_setWidth_eq_and (n : Nat) (w : Word) :
    (w.setWidth n).setWidth 32 = w &&& BitVec.ofNat 32 (2 ^ n - 1) := by
  apply BitVec.eq_of_getLsbD_eq
  intro i hi
  simp only [BitVec.getLsbD_setWidth, BitVec.getLsbD_and, BitVec.getLsbD_ofNat, Nat.testBit_two_pow_sub_one, hi]
  simp [Bool.and_comm]

theorem bufByte_writeReg_of_ne_dataIn {r : Reg} (k : Nat) (w : Word) (s : State) (hr : r ≠ .dataIn) (a : Nat) :
    (writeReg r k w s).bufByte a = s.bufByte a := by
  obtain ⟨-, -, -, -, -, hresets, -⟩ := writeReg_frame r k w s
  exact State.bufByte_congr (writeReg_mem k w s hr) hresets a

theorem bufByte_writeReg_dataIn_outside (k : Nat) (w : Word) (s : State) (a : Nat)
    (h : a < dataInBase + 4 * k ∨ dataInBase + 4 * k + 4 ≤ a) :
    (writeReg .dataIn k w s).bufByte a = s.bufByte a :=
  State.bufByte_memWrite_outside _ _ _ _ _ (by rwa [Vector.length_toList])

/-- No write to a listed register reaches DATA_OUT: DATA_IN ends below it (R18, R54). -/
theorem bufByte_writeReg_dataOut {off k : Nat} {r : Reg} {s : State} (hl : s.cfg.Legal)
    (hreg : regAt s.cfg off = some (r, k)) (w : Word) {a : Nat} (ha : dataOutBase ≤ a) :
    (writeReg r k w s).bufByte a = s.bufByte a := by
  by_cases hr : r = .dataIn
  · subst hr
    have hword : 4 * k + 4 ≤ s.cfg.dataCap := regAt_word_inside hl hreg
    have hcap := hl.2
    refine bufByte_writeReg_dataIn_outside k w s a (.inr ?_)
    simp only [dataInBase, dataOutBase] at ha ⊢
    omega
  · exact bufByte_writeReg_of_ne_dataIn k w s hr a

/-- A write to a register other than CMD and STATUS leaves the words of every other register alone: each of them reads
a field of its own, and the two buffers do not overlap (R18). -/
theorem regWord_writeReg_other_reg {off k : Nat} {r r' : Reg} {s : State} (hl : s.cfg.Legal)
    (hreg : regAt s.cfg off = some (r, k)) (hcmd : r ≠ .cmd) (hstatus : r ≠ .status) (hne : r' ≠ r) (w : Word)
    (k' : Nat) : (writeReg r k w s).regWord r' k' = s.regWord r' k' := by
  cases r' with
  | status =>
    obtain ⟨hpending, hdone, hovr, herr⟩ := writeReg_status k w s hcmd hstatus
    exact State.statusWord_congr hpending hdone hovr herr
  | dataIn => exact State.bufWord_congr _ fun j _ => bufByte_writeReg_of_ne_dataIn k w s hne.symm _
  | dataOut =>
    have hout : ∀ j, dataOutBase ≤ dataOutBase + 4 * k' + j := fun j =>
      Nat.le_add_right_of_le (Nat.le_add_right ..)
    exact State.bufWord_congr _ fun j _ => bufByte_writeReg_dataOut hl hreg w (hout j)
  | blobCt =>
    obtain ⟨-, -, -, -, -, -, -, hblob⟩ := writeReg_frame r k w s
    simp only [State.regWord, State.blobFile, hblob]
  | _ => cases r <;> first | contradiction | simp [State.regWord, writeReg]

/-! ### DATA_OUT over a step (R40, R54) -/

theorem bufByte_writeWindow_dataOut {off : Nat} {w : Word} {s u : State} (hl : s.cfg.Legal)
    (h : writeWindow off w s = some u) {a : Nat} (ha : dataOutBase ≤ a) : u.bufByte a = s.bufByte a := by
  rcases writeWindow_some h with ⟨-, rfl⟩ | ⟨-, -, rfl⟩ | ⟨-, -, r, k, hreg, -, rfl⟩
  · rfl
  · rfl
  · exact bufByte_writeReg_dataOut hl hreg w ha

theorem bufByte_hostStep_dataOut {s t : State} (hl : s.cfg.Legal) (h : hostStep s = .next t) {a : Nat}
    (ha : dataOutBase ≤ a) : t.bufByte a = s.bufByte a := by
  obtain ⟨u, hu, l, pc, rfl⟩ := hostStep_effect h
  rcases hu with rfl | rfl | ⟨off, w, -, hw⟩
  · rfl
  · rfl
  · exact bufByte_writeWindow_dataOut hl hw ha

/-- An engine step changes a byte only as CTR_CRYPT, and none above its output. -/
theorem bufByte_engineStep {w : Word} {s t : State} (h : engineStep w s = .next t) {a : Nat}
    (ha : t.bufByte a ≠ s.bufByte a) : decode w = .ok .ctrCrypt ∧ a < dataOutBase + s.len.toNat := by
  obtain ⟨ht, hmem | ⟨hw, -, bs, hbs, hmem⟩⟩ := engineStep_performed h
  · exact absurd (State.bufByte_congr hmem ht.resets a) ha
  · refine ⟨hw, Nat.lt_of_not_le fun hout => ha ?_⟩
    have hread : t.mem.read a = s.mem.read a := by
      rw [hmem, Memory.read_writeBytes_outside bs s.mem dataOutBase a (.inr (by rwa [hbs]))]
    rw [State.bufByte, State.bufByte, hread, ht.resets]

/-! ### BLOB_CT's padding (R38, R87) -/

theorem blobFile_padding (s : State) (i : Fin 16) : s.blobFile[48 + i.val] = 0 := by
  simp only [State.blobFile]
  rw [Vector.getElem_append_right (by omega) (by omega)]
  exact zeroBytes_getElem _ _ _

theorem blobFile_stored (s : State) (i : Fin 48) : s.blobFile[i.val] = s.blobCt[i] := by
  simp only [State.blobFile]
  exact Vector.getElem_append_left i.isLt

theorem slice_zeroBytes {n i len : Nat} (h : i + len ≤ n) : slice (zeroBytes n) i len = zeroBytes len := by
  ext j hj : 1
  rw [slice_getElem _ _ _ _ hj (by omega), zeroBytes_getElem, zeroBytes_getElem]

theorem regWord_blobCt_padding (s : State) {k : Nat} (hlow : 12 ≤ k) (hhigh : k < 16) : s.regWord .blobCt k = 0 := by
  have hzero : slice s.blobFile (4 * k) 4 = zeroBytes 4 := by
    rw [State.blobFile, slice_append_right _ _ _ _ (by omega) (by omega), slice_zeroBytes (by omega)]
  change fromLE32 (slice s.blobFile (4 * k) 4) = 0
  rw [hzero]
  rfl

end Sys2Proof.Machine

/-! ### The statements of 10_state.md -/

namespace Sys2Proof.Claims

open Sys2Proof.Machine Sys2Proof.Safety

/-- A read-write register holds no command and no STATUS, so a write to it is stored. -/
theorem readWriteRegs_ne {r : Reg} (hr : r ∈ readWriteRegs) : r ≠ .cmd ∧ r ≠ .status := by
  constructor <;> (rintro rfl; revert hr; decide)

/-- The word written to a read-write register is the word it reads as, its reserved bits 0. -/
theorem regWord_writeReg_same {r : Reg} (hr : r ∈ readWriteRegs) {k : Nat} {s : State}
    (hin : 4 * k + 4 ≤ r.size s.cfg) (w : Word) : (writeReg r k w s).regWord r k = storedWord r w := by
  cases r with
  | len | startAddr | endAddr | endFlags | baseAddr => rfl
  | ctxSel => exact setWidth_setWidth_eq_and 2 w
  | align => exact setWidth_setWidth_eq_and 8 w
  | scr | kek | skek | imgKey | ctr8 | iv | ctr16 | blobPt => exact wordAt_setWordAt_same _ k w hin
  | dataIn => exact State.bufWord_written s dataInBase (4 * k) w
  | cmd | status | flashBase | crcResult | blobCt | dataOut => exact absurd hr (by decide)

/-- A write to a register of one word has no other word beside it, and in an array it leaves the others alone. -/
theorem regWord_writeReg_other_word {r : Reg} (hr : r ∈ readWriteRegs) {k k' : Nat} {s : State}
    (hk : 4 * k < r.size s.cfg) (hk' : 4 * k' < r.size s.cfg) (hne : k' ≠ k) (w : Word) :
    (writeReg r k w s).regWord r k' = s.regWord r k' := by
  cases r with
  | len | ctxSel | align | startAddr | endAddr | endFlags | baseAddr =>
    simp only [Reg.size] at hk hk'
    omega
  | scr | kek | skek | imgKey | ctr8 | iv | ctr16 | blobPt => exact wordAt_setWordAt_other _ k k' w hne
  | dataIn => exact State.bufWord_congr _ fun j _ => bufByte_writeReg_dataIn_outside k w s _ (by omega)
  | cmd | status | flashBase | crcResult | blobCt | dataOut => exact absurd hr (by decide)

/-- A write to a read-write register leaves the words at every other offset alone. -/
theorem regWord_writeReg_other_offset {off off' k k' : Nat} {r r' : Reg} {s : State} (hl : s.cfg.Legal)
    (hr : r ∈ readWriteRegs) (hreg : regAt s.cfg off = some (r, k)) (hreg' : regAt s.cfg off' = some (r', k'))
    (hne : off' ≠ off) (w : Word) : (writeReg r k w s).regWord r' k' = s.regWord r' k' := by
  by_cases hsame : r' = r
  · subst hsame
    obtain ⟨hoff, hk⟩ := regAt_some hreg
    obtain ⟨hoff', hk'⟩ := regAt_some hreg'
    exact regWord_writeReg_other_word hr hk hk' (by omega) w
  · obtain ⟨hcmd, hstatus⟩ := readWriteRegs_ne hr
    exact regWord_writeReg_other_reg hl hreg hcmd hstatus hsame w k'

theorem writeReg_readOnly {r : Reg} (hr : r ∈ readOnlyRegs) (k : Nat) (w : Word) (s : State) :
    writeReg r k w s = s := by
  simp only [readOnlyRegs, List.mem_cons, List.not_mem_nil, or_false] at hr
  rcases hr with rfl | rfl | rfl | rfl <;> rfl

/-- Settles O21: while idle the write is the register's own, which stores its word and leaves every other word alone. -/
theorem hostWriteIsReadBack : Obligations.HostWriteIsReadBack := by
  unfold Obligations.HostWriteIsReadBack
  intro s off r k w hl hb hreg
  refine ⟨fun hr => ?_, fun hr => ?_⟩
  · obtain ⟨hcmd, hstatus⟩ := readWriteRegs_ne hr
    obtain ⟨-, hprogram, hpc, htrace, -⟩ := writeReg_frame r k w s
    obtain ⟨hpending, -⟩ := writeReg_status k w s hcmd hstatus
    exact ⟨writeReg r k w s, writeWindow_idle_eq hreg hstatus hb,
      regWord_writeReg_same hr (regAt_word_inside hl hreg) w,
      fun off' r' k' hne hreg' => regWord_writeReg_other_offset hl hr hreg hreg' hne w,
      hpending, hprogram, hpc, htrace⟩
  · have hstatus : r ≠ .status := by rintro rfl; revert hr; decide
    rw [writeWindow_idle_eq hreg hstatus hb, writeReg_readOnly hr]

/-- Settles O11: every step but a reset and the engine's is a host step, which keeps PENDING. -/
theorem busyUntilPerformed : Obligations.BusyUntilPerformed := by
  unfold Obligations.BusyUntilPerformed
  intro s t w hp h hne
  rcases step_cases h with ⟨hr, -⟩ | ⟨-, hidle, -⟩ | ⟨-, v, -, hd, h⟩ | ⟨-, v, d, -, -, h⟩
  · exact .inl hr
  · rw [hp] at hidle
    cases hidle
  · obtain ⟨ht, -⟩ := engineStep_performed h
    exact .inr ⟨hd, ht.pending, ht.done⟩
  · obtain ⟨hkept, -⟩ := hostStep_busy (s := { s with delay := d }) (busy_of_some hp) h
    exact absurd (hkept.trans hp) hne

/-- Settles O12: of what a step can do to OVR, only a reset and a write to STATUS clear it. -/
theorem ovrStaysUntilCleared : Obligations.OvrStaysUntilCleared := by
  unfold Obligations.OvrStaysUntilCleared
  intro s t hs h ht
  rcases step_ovr h with ⟨hr, -⟩ | hkept | ⟨off, v, hop, ⟨rfl, hcleared⟩ | ⟨-, -, hset⟩⟩
  · exact .inl hr
  · rw [hkept, hs] at ht
    cases ht
  · refine .inr ⟨v, hop, ?_⟩
    simpa [hs, ht] using hcleared
  · rw [hset] at ht
    cases ht

/-- Settles O13: of what a step can do to OVR, only a lost write sets it. -/
theorem ovrSetOnlyByLostWrite : Obligations.OvrSetOnlyByLostWrite := by
  unfold Obligations.OvrSetOnlyByLostWrite
  intro s t hs h ht
  rcases step_ovr h with ⟨-, hreset⟩ | hkept | ⟨off, v, hop, ⟨-, hcleared⟩ | ⟨hoff, hb, -⟩⟩
  · rw [hreset] at ht
    cases ht
  · rw [hkept, hs] at ht
    cases ht
  · rw [hcleared, hs] at ht
    cases ht
  · exact ⟨hb, off, v, hop, hoff⟩

/-- Settles O26: a write to STATUS is clearStatus, idle or busy. -/
theorem statusWriteClears : Obligations.StatusWriteClears := by
  unfold Obligations.StatusWriteClears
  exact fun s w => ⟨clearStatus w s, writeWindow_status_eq w s, clearStatus_statusWord w s, rfl⟩

/-- Settles O51: a host step leaves DATA_OUT alone, and the engine writes it only as CTR_CRYPT, below LEN. -/
theorem dataOutOnlyFromCtrCrypt : Obligations.DataOutOnlyFromCtrCrypt := by
  unfold Obligations.DataOutOnlyFromCtrCrypt
  intro s t a hl ha h hne
  rcases step_cases h with ⟨hr, -⟩ | ⟨-, -, h⟩ | ⟨-, w, hp, hd, h⟩ | ⟨-, w, d, -, -, h⟩
  · exact .inl hr
  · exact absurd (bufByte_hostStep_dataOut hl h ha) hne
  · obtain ⟨hw, hbelow⟩ := bufByte_engineStep h hne
    exact .inr ⟨hd, ⟨w, hp, hw⟩, hbelow⟩
  · exact absurd (bufByte_hostStep_dataOut (s := { s with delay := d }) hl h ha) hne

/-- Settles O24: a write to CMD is accept while idle and is lost while busy, and every command completes. -/
theorem acceptanceAndCompletion : Obligations.AcceptanceAndCompletion := by
  unfold Obligations.AcceptanceAndCompletion
  refine ⟨fun s w hb => ?_, fun i s => ?_, fun s w v hp => ?_, fun s => rfl⟩
  · exact ⟨accept w s, writeWindow_idle_eq (regAt_cmd s.cfg) (by decide) hb, rfl⟩
  · obtain ⟨t, h⟩ := exec_next i s
    obtain ⟨ht, -⟩ := exec_performed h
    exact ⟨t, h, ht.pending, ht.idle, ht.done, ht.ovr⟩
  · exact ⟨loseWrite s, writeWindow_busy_eq (regAt_cmd s.cfg) (by decide) (busy_of_some hp), hp⟩

/-- Settles O25: STATUS bit by bit, and ERR case by case. -/
theorem statusFields : Obligations.StatusFields := by
  unfold Obligations.StatusFields
  intro s
  obtain ⟨hlow, herr, hhigh⟩ := statusWord_fields s
  refine ⟨statusWord_getLsbD s 0, statusWord_getLsbD s 1, statusWord_getLsbD s 2, hlow, ?_, hhigh⟩
  rw [herr]
  rcases s.err with _ | _ | _ | _ | _ <;> rfl

/-- Settles O40: the padding is the constant part of BLOB_CT. -/
theorem blobPaddingReadsZero : Obligations.BlobPaddingReadsZero := by
  unfold Obligations.BlobPaddingReadsZero
  exact fun s => ⟨blobFile_padding s, blobFile_stored s, fun k => regWord_blobCt_padding s⟩

/-! ### The table of R18 -/

/-- The rows of the layout table are the registers, each with its base and its size. -/
theorem windowMap_eq (cfg : Config) : windowMap cfg = Reg.all.map fun r => (r, r.base, r.size cfg) := rfl

theorem covers_iff {cfg : Config} {off : Nat} {r : Reg} :
    r.covers cfg off = true ↔ r.base ≤ off ∧ off < r.base + r.size cfg := by
  simp [Reg.covers]

theorem reserved_iff {cfg : Config} {off : Nat} : Reserved cfg off ↔ ∀ r : Reg, r.covers cfg off = false := by
  simp only [Reserved, windowMap_eq, List.forall_mem_map, ← covers_iff, Bool.not_eq_true]
  exact ⟨fun h r => h r (Reg.mem_all r), fun h r _ => h r⟩

/-- Settles O15: a row of the table is a register, whose offsets name it and no other. -/
theorem windowLayout : Obligations.WindowLayout := by
  unfold Obligations.WindowLayout
  intro cfg off hl
  refine ⟨?_, fun h => (regAt_none_iff cfg off).mpr (h.imp_right reserved_iff.mp)⟩
  simp only [windowMap_eq, List.forall_mem_map]
  exact fun r _ h4 hlow hhigh => regAt_of_covers hl h4 (covers_iff.mpr ⟨hlow, hhigh⟩)

end Sys2Proof.Claims

/-! SUPPORT. The register window of 20_memory.md: accesses that name no register, what a read returns, the bytes of a
word, and that a write done twice is done once. -/

namespace Sys2Proof.Machine

/-! ### Accesses that name no register (R48) -/

theorem readWindow_unlisted {off : Nat} {s : State} (h : regAt s.cfg off = none) : readWindow off s = none := by
  simp [readWindow, h]

theorem writeWindow_unlisted {off : Nat} {s : State} (h : regAt s.cfg off = none) (w : Word) :
    writeWindow off w s = none := by
  simp [writeWindow, h]

theorem busRead_unlisted {off : Nat} {s : State} (h : regAt s.cfg off = none) :
    busRead (s.cfg.blockBase + off) s = none := by
  rw [busRead_base_add, readWindow_unlisted h, ite_self]

theorem busWrite_unlisted {off : Nat} {s : State} (h : regAt s.cfg off = none) (w : Word) :
    busWrite (s.cfg.blockBase + off) w s = none := by
  rw [busWrite_base_add, writeWindow_unlisted h, ite_self]

/-! ### What a host read returns (R52, R58) -/

theorem readWindow_eq {off k : Nat} {r : Reg} {s : State} (h : regAt s.cfg off = some (r, k)) :
    readWindow off s = some (readReg r k s) := by
  simp [readWindow, h]

theorem readWindow_idle {off : Nat} {v : Word} {s u : State} (hb : s.busy = false)
    (h : readWindow off s = some (v, u)) : u = s := by
  rcases hreg : regAt s.cfg off with _ | ⟨r, k⟩
  · rw [readWindow_unlisted hreg] at h
    cases h
  · rw [readWindow_eq hreg, readReg_idle hb] at h
    cases h
    rfl

theorem pendingOutput_command {s : State} {w : Word} {i : Instr} (hp : s.pending = some w) (hw : decode w = .ok i)
    (r : Reg) : s.pendingOutput r = commandOutput i r := by
  simp [State.pendingOutput, hp, hw]

theorem pendingOutput_illegal {s : State} {w : Word} {e : DecodeError} (hp : s.pending = some w)
    (hw : decode w = .error e) (r : Reg) : s.pendingOutput r = false := by
  simp [State.pendingOutput, hp, hw]

theorem hardWired_iff {r : Reg} {k : Nat} : hardWired r k = true ↔ r = .blobCt ∧ 12 ≤ k := by
  simp [hardWired]

/-! ### A write done twice (R20, R53) -/

theorem Memory.write_write_same (m : Memory) (a : Nat) (b : Byte) : (m.write a b).write a b = m.write a b := by
  induction m with
  | nil => simp [Memory.write]
  | cons c m ih =>
    obtain ⟨x, y⟩ := c
    rcases Nat.lt_trichotomy a x with hlt | rfl | hgt
    · simp [Memory.write, hlt]
    · simp [Memory.write]
    · simp [Memory.write, Nat.lt_asymm hgt, Nat.ne_of_gt hgt, ih]

/-- Writes at two offsets commute, in canonical form or not: each goes before the first entry that is not below it. -/
theorem Memory.write_write_comm (m : Memory) {a c : Nat} (b d : Byte) (h : a < c) :
    (m.write c d).write a b = (m.write a b).write c d := by
  induction m with
  | nil => simp [Memory.write, h, Nat.lt_asymm h, Nat.ne_of_gt h]
  | cons e m ih =>
    obtain ⟨x, y⟩ := e
    rcases Nat.lt_trichotomy c x with hlt | rfl | hgt
    · have hax := Nat.lt_trans h hlt
      simp [Memory.write, h, hlt, hax, Nat.lt_asymm h, Nat.ne_of_gt h]
    · simp [Memory.write, h, Nat.lt_asymm h, Nat.ne_of_gt h]
    · have hcx : ¬ c < x := Nat.lt_asymm hgt
      have hcne : c ≠ x := Nat.ne_of_gt hgt
      rcases Nat.lt_trichotomy a x with hax | rfl | hax
      · simp [Memory.write, hcx, hcne, hax, Nat.lt_asymm h, Nat.ne_of_gt h]
      · simp [Memory.write, hcx, hcne]
      · simp [Memory.write, hcx, hcne, Nat.lt_asymm hax, Nat.ne_of_gt hax, ih]

theorem Memory.write_writeBytes_comm (bs : List Byte) (m : Memory) {a c : Nat} (b : Byte) (h : a < c) :
    (m.writeBytes c bs).write a b = (m.write a b).writeBytes c bs := by
  induction bs generalizing m c with
  | nil => rfl
  | cons d bs ih =>
    rw [Memory.writeBytes_cons, Memory.writeBytes_cons, ih _ (Nat.lt_succ_of_lt h), Memory.write_write_comm m b d h]

theorem Memory.writeBytes_writeBytes_same (bs : List Byte) (m : Memory) (a : Nat) :
    (m.writeBytes a bs).writeBytes a bs = m.writeBytes a bs := by
  induction bs generalizing m a with
  | nil => rfl
  | cons b bs ih =>
    simp only [Memory.writeBytes_cons]
    rw [Memory.write_writeBytes_comm bs _ b (Nat.lt_succ_self a), Memory.write_write_same, ih]

theorem setWordAt_setWordAt_same {n : Nat} (b : Bytes n) (k : Nat) (w : Word) :
    setWordAt (setWordAt b k w) k w = setWordAt b k w := by
  ext i hi : 1
  simp only [setWordAt_getElem]
  split <;> rfl

theorem clearStatus_clearStatus_same (w : Word) (s : State) :
    clearStatus w (clearStatus w s) = clearStatus w s := by
  simp [clearStatus]

/-- A write to a register other than CMD stores a value that does not depend on what was stored before, or clears
bits of STATUS, or does nothing. -/
theorem writeReg_writeReg_same {r : Reg} (hr : r ≠ .cmd) (k : Nat) (w : Word) (s : State) :
    writeReg r k w (writeReg r k w s) = writeReg r k w s := by
  cases r with
  | cmd => contradiction
  | status => exact clearStatus_clearStatus_same w s
  | dataIn => simp [writeReg, State.memWrite, Memory.writeBytes_writeBytes_same]
  | scr | kek | skek | imgKey | ctr8 | iv | ctr16 | blobPt => simp [writeReg, setWordAt_setWordAt_same]
  | _ => rfl

/-- A write to any register but CMD, done twice: STATUS at any time, the others lost while busy and stored while idle. -/
theorem writeWindow_writeWindow_same {off : Nat} {w : Word} {s t : State} (hoff : off ≠ 0x000)
    (h : writeWindow off w s = some t) : writeWindow off w t = some t := by
  obtain ⟨hcfg, -⟩ := writeWindow_frame h
  rcases hreg : regAt s.cfg off with _ | ⟨r, k⟩
  · rw [writeWindow_unlisted hreg] at h
    cases h
  have hregt : regAt t.cfg off = some (r, k) := by rw [hcfg, hreg]
  by_cases hstatus : r = .status
  · subst hstatus
    obtain rfl := regAt_status_offset hreg
    rw [writeWindow_status_eq] at h ⊢
    cases h
    rw [clearStatus_clearStatus_same]
  cases hb : s.busy with
  | true =>
    rw [writeWindow_busy_eq hreg hstatus hb] at h
    cases h
    exact writeWindow_busy_eq hregt hstatus hb
  | false =>
    have hcmd : r ≠ .cmd := by
      rintro rfl
      exact hoff (regAt_cmd_offset hreg)
    rw [writeWindow_idle_eq hreg hstatus hb] at h
    cases h
    have hidle : (writeReg r k w s).busy = false := by
      rw [State.busy, (writeReg_status k w s hcmd hstatus).1]
      exact hb
    rw [writeWindow_idle_eq hregt hstatus hidle, writeReg_writeReg_same hcmd]

end Sys2Proof.Machine

/-! ### The statements of 20_memory.md -/

namespace Sys2Proof.Claims

open Sys2Proof.Machine

/-- The model's outputs of a command are the copied column of R64. -/
theorem commandOutput_iff {i : Instr} {r : Reg} : commandOutput i r = true ↔ r ∈ outputRegs i := by
  cases i <;> simp [commandOutput, outputRegs]

/-- On a read, bits [8j+7 : 8j] of word k are byte 4k + j of the register (R50). -/
theorem regWord_byte {s : State} {r : Reg} {k j : Nat} {b : Byte} (hj : j < 4)
    (hb : arrayByte s r (4 * k + j) = some b) : (s.regWord r k).extractLsb' (8 * j) 8 = b := by
  cases r with
  | scr | kek | skek | imgKey | ctr8 | iv | ctr16 | blobPt | blobCt => exact wordAt_byte _ k j hj b hb
  | dataIn | dataOut =>
    simp only [arrayByte, Option.ite_none_right_eq_some, Option.some.injEq] at hb
    rw [← hb.2, ← Nat.add_assoc]
    exact State.bufWord_byte s _ j hj
  | _ => cases hb

/-- Byte i of DATA_IN after a write of word k (R49, R50). -/
theorem bufByte_writeReg_dataIn (k : Nat) (w : Word) (s : State) (i : Nat) :
    (writeReg .dataIn k w s).bufByte (dataInBase + i) =
      if i / 4 = k then w.extractLsb' (8 * (i % 4)) 8 else s.bufByte (dataInBase + i) := by
  split
  · rename_i hk
    have hlane : i % 4 < (le32 w).toList.length := by
      rw [Vector.length_toList]
      exact Nat.mod_lt i (by decide)
    rw [show dataInBase + i = dataInBase + 4 * k + i % 4 by omega,
      ← le32_getElem w (i % 4) (Nat.mod_lt i (by decide))]
    exact State.bufByte_memWrite_inside s dataInBase (4 * k) _ _ hlane
  · exact bufByte_writeReg_dataIn_outside k w s _ (by omega)

/-- On a write of word k, byte i takes its bits of the word where it lies in word k, and stays elsewhere (R50). -/
theorem arrayByte_writeReg {s : State} {r : Reg} (hr : r ∈ readWriteRegs) {i : Nat} {b : Byte}
    (hb : arrayByte s r i = some b) (k : Nat) (w : Word) :
    arrayByte (writeReg r k w s) r i = some (if i / 4 = k then w.extractLsb' (8 * (i % 4)) 8 else b) := by
  cases r with
  | scr | kek | skek | imgKey | ctr8 | iv | ctr16 | blobPt => exact setWordAt_byte _ k w i b hb
  | dataIn =>
    simp only [arrayByte, Option.ite_none_right_eq_some, Option.some.injEq] at hb
    obtain ⟨hi, rfl⟩ := hb
    exact (if_pos hi).trans (congrArg some (bufByte_writeReg_dataIn k w s i))
  | blobCt | dataOut => exact absurd hr (by decide)
  | _ => cases hb

/-- Settles O20: the lanes of a byte array on reads and on writes; a numeric register is its own word. -/
theorem byteLanes : Obligations.ByteLanes := by
  unfold Obligations.ByteLanes
  exact fun s => ⟨fun _ _ _ _ => regWord_byte, fun _ hr k w _ _ hb _ => arrayByte_writeReg hr hb k w,
    fun _ => ⟨rfl, rfl, rfl, rfl, rfl, rfl, rfl, rfl, rfl, rfl, rfl, rfl⟩⟩

/-- Settles O16: such an offset names no register, so the bus answers none. -/
theorem illegalAccessesAreBusErrors : Obligations.IllegalAccessesAreBusErrors := by
  unfold Obligations.IllegalAccessesAreBusErrors
  intro s off _
  refine ⟨fun h => ?_, fun _ _ => rfl⟩
  have hreg : regAt s.cfg off = none := (regAt_none_iff s.cfg off).mpr (h.imp_right reserved_iff.mp)
  have hread := busRead_unlisted hreg
  exact ⟨fun v => by simp [hostOp, busWrite_unlisted hreg v], by simp [hostOp, hread],
    fun mask l => by simp [hostOp, hread]⟩

/-- Settles O23: a word is drawn when its register is an output of the pending command and the word is not hard-wired,
and reads its value otherwise. -/
theorem hostReads : Obligations.HostReads := by
  unfold Obligations.HostReads
  intro s off r k hreg
  rw [readWindow_eq hreg]
  have hstored : s.pendingOutput r = false ∨ hardWired r k = true →
      some (readReg r k s) = some (s.regWord r k, s) := fun h => congrArg some (readReg_stored h)
  refine ⟨fun hb => hstored (.inl (pendingOutput_idle hb r)), ?_, fun w i hp hw => ⟨fun hr => ?_, fun hr hpad => ?_, ?_⟩,
    fun w hp hw => ?_⟩
  · rintro rfl
    exact hstored (.inl (pendingOutput_status s))
  · refine hstored (.inl ?_)
    rw [pendingOutput_command hp hw, Bool.eq_false_iff]
    exact fun h => hr (commandOutput_iff.mp h)
  · have hout : s.pendingOutput r = true := (pendingOutput_command hp hw r).trans (commandOutput_iff.mpr hr)
    rw [readReg_drawn hout (Bool.eq_false_iff.mpr fun h => hpad (hardWired_iff.mp h))]
  · rintro rfl hk
    have hsize : 4 * k < 64 := (regAt_some hreg).2
    rw [hstored (.inr (hardWired_iff.mpr ⟨rfl, hk⟩)), regWord_blobCt_padding s hk (by omega)]
  · cases hd : decode w with
    | error e => exact hstored (.inl (pendingOutput_illegal hp hd r))
    | ok i => rw [hd] at hw; cases hw

/-- Settles O54: a write other than CMD's by writeWindow_writeWindow_same, a read because it leaves an idle state. -/
theorem accessesAreIdempotent : Obligations.AccessesAreIdempotent := by
  unfold Obligations.AccessesAreIdempotent
  refine ⟨fun s t off w => writeWindow_writeWindow_same, fun s u off v hb h => ?_⟩
  obtain rfl := readWindow_idle hb h
  exact ⟨rfl, h⟩

/-- Settles O22: a write to a listed register other than STATUS is loseWrite, and an unlisted offset answers none. -/
theorem writesWhileBusyAreLost : Obligations.WritesWhileBusyAreLost := by
  unfold Obligations.WritesWhileBusyAreLost
  exact fun s off w hb => ⟨fun r k hreg hr => writeWindow_busy_eq hreg hr hb, fun hreg => writeWindow_unlisted hreg w⟩

end Sys2Proof.Claims

/-! SUPPORT. The encoding of 30_encoding.md: the command words and the illegal ones, the outputs of each command, what
each host operation does, the place of a label, and the words that the pseudo-operations stand for. -/

namespace Sys2Proof.Machine

/-! ### Command words (R62 to R65) -/

theorem encode_eq_of_fields {w : Word} {i : Instr} (hr : rsvdField w = 0) (hop : opField w = opCode i) :
    encode i = w := by
  rw [← word_eq_fields w, hr, hop]
  rfl

/-- A word decodes to a command exactly when RSVD is 0 and OP is the command's code (R64). -/
theorem decode_eq_ok_iff {w : Word} {i : Instr} : decode w = .ok i ↔ rsvdField w = 0 ∧ opField w = opCode i := by
  constructor
  · intro h
    by_cases hr : rsvdField w = 0
    · rw [decode_of_clear hr] at h
      rcases decodeOp_cases (opField w) with ⟨j, hj, hcode⟩ | ⟨hj, -⟩
      · cases h.symm.trans hj
        exact ⟨hr, hcode.symm⟩
      · cases h.symm.trans hj
    · rw [decode_of_reserved hr] at h
      cases h
  · rintro ⟨hr, hop⟩
    rw [← encode_eq_of_fields hr hop, decode_encode]

theorem encode_of_decode {w : Word} {i : Instr} (h : decode w = .ok i) : encode i = w := by
  obtain ⟨hr, hop⟩ := decode_eq_ok_iff.mp h
  exact encode_eq_of_fields hr hop

/-- A word decodes to no command exactly when RSVD is not 0 or OP is unassigned (R63, R65). -/
theorem decode_error_iff {w : Word} : (∃ e, decode w = .error e) ↔
    rsvdField w ≠ 0 ∨ (opField w).toNat = 0 ∨ 8 ≤ (opField w).toNat := by
  constructor
  · rintro ⟨e, he⟩
    by_cases hr : rsvdField w = 0
    · rw [decode_of_clear hr] at he
      rcases decodeOp_cases (opField w) with ⟨i, hi, -⟩ | ⟨-, hop⟩
      · cases he.symm.trans hi
      · exact .inr hop
    · exact .inl hr
  · intro h
    cases hw : decode w with
    | error e => exact ⟨e, rfl⟩
    | ok i =>
      obtain ⟨hr, hop⟩ := decode_eq_ok_iff.mp hw
      have hrange := opCode_range i
      rw [← hop] at hrange
      rcases h with h | h
      · exact absurd hr h
      · omega

/-! ### The outputs of a command (R64) -/

/-- s with the outputs of a command, the column 'writes' of R64, as they are in t; the draws of AES are the model's. -/
def withOutputs (i : Instr) (s t : State) : State :=
  match i with
  | .crc32 => { s with crcResult := t.crcResult }
  | .scramble => { s with skek := t.skek }
  | .buildBlob => { s with blobPt := t.blobPt, crcResult := t.crcResult }
  | .kwrap => { s with blobCt := t.blobCt, aesDraws := t.aesDraws }
  | .blobSwap => { s with blobCt := t.blobCt }
  | .extCtr => { s with ctr16 := t.ctr16 }
  | .ctrCrypt => { s with ctr16 := t.ctr16, mem := t.mem, aesDraws := t.aesDraws }

/-- A command completes and changes nothing but its outputs (R64, R120). -/
theorem exec_eq_withOutputs {i : Instr} {s t : State} (h : exec i s = .next t) :
    t = complete t.err (withOutputs i s t) := by
  cases i with
  | crc32 =>
    simp only [exec, execCrc32] at h
    split at h <;> (cases h; rfl)
  | buildBlob =>
    simp only [exec, execBuildBlob] at h
    split at h <;> (cases h; simp [withOutputs])
  | kwrap =>
    simp only [exec, execKwrap] at h
    split at h <;> (cases h; simp [withOutputs])
  | ctrCrypt =>
    simp only [exec, execCtrCrypt] at h
    split at h
    · split at h <;> (cases h; simp [withOutputs, State.memWrite])
    · cases h
      rfl
  | scramble | blobSwap | extCtr => cases h; rfl

section
variable {i : Instr} {s t : State}

theorem exec_crcResult (h : exec i s = .next t) (hcrc : i ≠ .crc32) (hbuild : i ≠ .buildBlob) :
    t.crcResult = s.crcResult := by
  rw [exec_eq_withOutputs h, complete_crcResult]
  cases i with
  | crc32 | buildBlob => contradiction
  | _ => rfl

theorem exec_skek (h : exec i s = .next t) (hscramble : i ≠ .scramble) : t.skek = s.skek := by
  rw [exec_eq_withOutputs h, complete_skek]
  cases i with
  | scramble => contradiction
  | _ => rfl

theorem exec_blobPt (h : exec i s = .next t) (hbuild : i ≠ .buildBlob) : t.blobPt = s.blobPt := by
  rw [exec_eq_withOutputs h, complete_blobPt]
  cases i with
  | buildBlob => contradiction
  | _ => rfl

theorem exec_blobCt (h : exec i s = .next t) (hwrap : i ≠ .kwrap) (hswap : i ≠ .blobSwap) :
    t.blobCt = s.blobCt := by
  rw [exec_eq_withOutputs h, complete_blobCt]
  cases i with
  | kwrap | blobSwap => contradiction
  | _ => rfl

theorem exec_ctr16 (h : exec i s = .next t) (hext : i ≠ .extCtr) (hcrypt : i ≠ .ctrCrypt) :
    t.ctr16 = s.ctr16 := by
  rw [exec_eq_withOutputs h, complete_ctr16]
  cases i with
  | extCtr | ctrCrypt => contradiction
  | _ => rfl

theorem exec_aesDraws (h : exec i s = .next t) (hwrap : i ≠ .kwrap) (hcrypt : i ≠ .ctrCrypt) :
    t.aesDraws = s.aesDraws := by
  rw [exec_eq_withOutputs h, complete_aesDraws]
  cases i with
  | kwrap | ctrCrypt => contradiction
  | _ => rfl

end

/-- CTR_CRYPT leaves bytes 0 to 11 of its counter alone (R102). -/
theorem otfadCtr_ctr_head (enc : Bytes 16 → Bytes 16 → Bytes 16) (pt : List (Bytes 16)) (key c : Bytes 16)
    (base : Word) (d : Draws Bool) : slice (otfadCtr enc pt key c base d).ctr 0 12 = slice c 0 12 := by
  rcases draws_ok_or_first_failure d pt.length with hok | ⟨k, hk, hok, hf⟩
  · rw [otfadCtr, ctrBlocks_ok _ _ _ _ _ _ _ hok]
    simp only
    split
    · rfl
    · exact slice_effective_head _ _
  · rw [otfadCtr, ctrBlocks_fail _ _ _ _ _ _ _ _ hk hok hf]
    exact slice_effective_head _ _

theorem execCtrCrypt_ctr_head {s t : State} (h : execCtrCrypt s = .next t) :
    slice t.ctr16 0 12 = slice s.ctr16 0 12 := by
  simp only [execCtrCrypt] at h
  split at h
  · split at h <;> (cases h; exact otfadCtr_ctr_head ..)
  · cases h
    rfl

/-- Only EXT_CTR writes bytes 0 to 11 of CTR16 (R64). -/
theorem exec_ctr_head {i : Instr} {s t : State} (h : exec i s = .next t) (hext : i ≠ .extCtr) :
    slice t.ctr16 0 12 = slice s.ctr16 0 12 := by
  by_cases hcrypt : i = .ctrCrypt
  · subst hcrypt
    exact execCtrCrypt_ctr_head h
  · rw [exec_ctr16 h hext hcrypt]

/-- The buffer bytes that a command can change (R64). -/
theorem bufByte_exec {i : Instr} {s t : State} (h : exec i s = .next t) {a : Nat}
    (ha : i ≠ .ctrCrypt ∨ a < dataOutBase ∨ dataOutBase + s.len.toNat ≤ a) : t.bufByte a = s.bufByte a := by
  obtain ⟨ht, hmem | ⟨hi, -, bs, hbs, hmem⟩⟩ := exec_performed h
  · exact State.bufByte_congr hmem ht.resets a
  · have hout : a < dataOutBase ∨ dataOutBase + bs.length ≤ a := by
      rw [hbs]
      exact ha.resolve_left (not_not_intro hi)
    rw [State.bufByte, State.bufByte, hmem, Memory.read_writeBytes_outside _ _ _ _ hout, ht.resets]

theorem inBlocks_with_kek (s : State) (k : Bytes 16) (n : Nat) :
    { s with kek := k }.inBlocks n = s.inBlocks n := rfl

/-- No command but SCRAMBLE reads KEK, and none writes it (R31). -/
theorem exec_with_kek {i : Instr} (hi : i ≠ .scramble) (s : State) (k : Bytes 16) :
    exec i { s with kek := k } = Claims.mapNext (fun t => { t with kek := k }) (exec i s) := by
  cases i with
  | scramble => contradiction
  | blobSwap | extCtr => rfl
  | crc32 =>
    simp only [exec, execCrc32]
    split <;> rfl
  | buildBlob =>
    simp only [exec, execBuildBlob]
    -- opaque, or rfl computes the CRC
    generalize blobCrc _ _ = crc
    split <;> rfl
  | kwrap =>
    simp only [exec, execKwrap]
    split <;> rfl
  | ctrCrypt =>
    simp only [exec, execCtrCrypt, inBlocks_with_kek]
    split
    · split <;> rfl
    · rfl

/-! ### Host operations (R67) -/

section
variable {off : Nat} {v mask : Word} {s u : State} {l t : Nat}

/-- An access that the window answers is an access on the bus, since every listed offset lies in the window. -/
theorem busWrite_of_writeWindow (hl : s.cfg.Legal) (h : writeWindow off v s = some u) :
    busWrite (s.cfg.blockBase + off) v s = some u := by
  cases hreg : regAt s.cfg off with
  | none =>
    rw [writeWindow_unlisted hreg] at h
    cases h
  | some p => rw [busWrite_base_add, if_pos (regAt_lt_windowSize hl hreg), h]

theorem busRead_of_readWindow (hl : s.cfg.Legal) (h : readWindow off s = some (v, u)) :
    busRead (s.cfg.blockBase + off) s = some (v, u) := by
  cases hreg : regAt s.cfg off with
  | none =>
    rw [readWindow_unlisted hreg] at h
    cases h
  | some p => rw [busRead_base_add, if_pos (regAt_lt_windowSize hl hreg), h]

theorem hostOp_wr (hl : s.cfg.Legal) (h : writeWindow off v s = some u) :
    hostOp (.wr off v) s = .next (hostNext u) := by
  simp [hostOp, busWrite_of_writeWindow hl h]

theorem hostOp_rd (hl : s.cfg.Legal) (h : readWindow off s = some (v, u)) :
    hostOp (.rd off) s = .next (hostNext { u with trace := u.trace ++ [v] }) := by
  simp [hostOp, busRead_of_readWindow hl h]

theorem hostOp_bnz_zero (hl : s.cfg.Legal) (h : readWindow off s = some (v, u)) (hv : v &&& mask = 0) :
    hostOp (.bnz off mask l) s = .next (hostNext u) := by
  simp [hostOp, busRead_of_readWindow hl h, hv]

theorem hostOp_bnz_taken (hl : s.cfg.Legal) (h : readWindow off s = some (v, u)) (hv : v &&& mask ≠ 0)
    (ht : labelIndex s.program l = some t) : hostOp (.bnz off mask l) s = .next { u with hostPc := t } := by
  simp only [hostOp, busRead_of_readWindow hl h, hv, ht, if_false]

theorem hostOp_bnz_undefined (hl : s.cfg.Legal) (h : readWindow off s = some (v, u)) (hv : v &&& mask ≠ 0)
    (ht : labelIndex s.program l = none) : hostOp (.bnz off mask l) s = .refused .undefinedLabel := by
  simp only [hostOp, busRead_of_readWindow hl h, hv, ht, if_false]

end

/-! ### The place of a label (R67) -/

/-- An element stands more than once in a list exactly when it stands at two places. -/
theorem two_le_count_iff {p : List HostOp} {a : HostOp} :
    2 ≤ p.count a ↔ ∃ m n : Nat, m < n ∧ p[m]? = some a ∧ p[n]? = some a := by
  rw [← List.duplicate_iff_two_le_count, List.duplicate_iff_exists_distinct_get]
  constructor
  · rintro ⟨m, n, hlt, hm, hn⟩
    exact ⟨m, n, hlt, by simp [hm], by simp [hn]⟩
  · rintro ⟨m, n, hlt, hm, hn⟩
    obtain ⟨hml, hm⟩ := List.getElem?_eq_some_iff.mp hm
    obtain ⟨hnl, hn⟩ := List.getElem?_eq_some_iff.mp hn
    exact ⟨⟨m, hml⟩, ⟨n, hnl⟩, hlt, hm.symm, hn.symm⟩

/-- What stands at one place and no other stands once. -/
theorem count_eq_one_iff_of_getElem? {p : List HostOp} {a : HostOp} {t : Nat} (ht : p[t]? = some a) :
    p.count a = 1 ↔ ∀ j, p[j]? = some a → j = t := by
  have hpos : 0 < p.count a := List.count_pos_iff.mpr (List.mem_of_getElem? ht)
  have hone : p.count a = 1 ↔ ¬ 2 ≤ p.count a := by omega
  rw [hone, two_le_count_iff]
  constructor
  · intro h j hj
    rcases Nat.lt_trichotomy j t with hlt | heq | hgt
    · exact absurd ⟨j, t, hlt, hj, ht⟩ h
    · exact heq
    · exact absurd ⟨t, j, hgt, ht, hj⟩ h
  · rintro h ⟨m, n, hlt, hm, hn⟩
    have hm := h m hm
    have hn := h n hn
    omega

theorem labelIndex_eq_some_iff {p : List HostOp} {l t : Nat} : labelIndex p l = some t ↔
    p[t]? = some (.label l) ∧ ∀ j, p[j]? = some (.label l) → j = t := by
  simp only [labelIndex, Option.ite_none_right_eq_some, List.findIdx?_eq_some_iff_getElem, beq_iff_eq]
  constructor
  · rintro ⟨hcount, hlt, hlabel, -⟩
    have ht : p[t]? = some (.label l) := List.getElem?_eq_some_iff.mpr ⟨hlt, hlabel⟩
    exact ⟨ht, (count_eq_one_iff_of_getElem? ht).mp hcount⟩
  · rintro ⟨ht, hunique⟩
    obtain ⟨hlt, hlabel⟩ := List.getElem?_eq_some_iff.mp ht
    refine ⟨(count_eq_one_iff_of_getElem? ht).mpr hunique, hlt, hlabel, fun j hj hjl => ?_⟩
    exact Nat.ne_of_lt hj (hunique j (List.getElem?_eq_some_iff.mpr ⟨by omega, hjl⟩))

/-! ### Pseudo-operations (R67) -/

/-- Operation k of WRB is the write of 4-byte group k. -/
theorem opWrbAt_getElem? {k : Nat} (off : Nat) {bytes : List Byte} (h : 4 * k + 4 ≤ bytes.length) :
    (opWrbAt off bytes)[k]? = some (.wr (off + 4 * k)
      (fromLE32 #v[bytes[4 * k], bytes[4 * k + 1], bytes[4 * k + 2], bytes[4 * k + 3]])) := by
  induction k generalizing off bytes with
  | zero =>
    match bytes, h with
    | b0 :: b1 :: b2 :: b3 :: rest, _ => rfl
  | succ k ih =>
    match bytes, h with
    | b0 :: b1 :: b2 :: b3 :: rest, h =>
      simp only [List.length_cons] at h
      rw [opWrbAt, List.getElem?_cons_succ, ih (off + 4) (by omega),
        show off + 4 + 4 * k = off + 4 * (k + 1) by omega]
      rfl

/-- Bytes that neither begin with a 4-byte group nor are empty are one to three. -/
theorem partialGroup_length {bytes : List Byte}
    (hgroup : ∀ (b0 b1 b2 b3 : Byte) (rest : List Byte), bytes = b0 :: b1 :: b2 :: b3 :: rest → False)
    (hempty : bytes = [] → False) : 0 < bytes.length ∧ bytes.length < 4 := by
  match bytes with
  | [] => exact (hempty rfl).elim
  | [_] | [_, _] | [_, _, _] => simp
  | b0 :: b1 :: b2 :: b3 :: rest => exact (hgroup b0 b1 b2 b3 rest rfl).elim

/-- WRB is one operation for each 4-byte group, and one more where bytes are left over. -/
theorem opWrbAt_length (off : Nat) (bytes : List Byte) :
    (opWrbAt off bytes).length = (bytes.length + 3) / 4 := by
  fun_induction opWrbAt off bytes with
  | case1 off b0 b1 b2 b3 rest ih =>
    simp only [List.length_cons, ih]
    omega
  | case2 => rfl
  | case3 =>
    have hlen := partialGroup_length ‹_› ‹_›
    simp only [List.length_singleton]
    omega

/-- Bytes left over end WRB in an operation outside the forms (log 25). -/
theorem opWrbAt_rest (off : Nat) {bytes : List Byte} (h : bytes.length % 4 ≠ 0) :
    (opWrbAt off bytes)[bytes.length / 4]? = some .foreign := by
  fun_induction opWrbAt off bytes with
  | case1 off b0 b1 b2 b3 rest ih =>
    simp only [List.length_cons] at h ⊢
    rw [show (rest.length + 1 + 1 + 1 + 1) / 4 = rest.length / 4 + 1 by omega, List.getElem?_cons_succ]
    exact ih (by omega)
  | case2 => contradiction
  | case3 =>
    obtain ⟨-, hlt⟩ := partialGroup_length ‹_› ‹_›
    rw [Nat.div_eq_of_lt hlt]
    rfl

theorem opRdb_length (r : Reg) (n : Nat) : (opRdb r n).length = n / 4 := by
  simp [opRdb]

theorem opRdb_getElem? (r : Reg) {n k : Nat} (h : k < n / 4) : (opRdb r n)[k]? = some (.rd (r.base + 4 * k)) := by
  simp [opRdb, h]

end Sys2Proof.Machine

/-! ### The statements of 30_encoding.md -/

namespace Sys2Proof.Claims

open Sys2Proof.Machine

/-- Settles O2: a command decodes from its own word, and a word is its two fields. -/
theorem decodeEncodeRoundTrip : Obligations.DecodeEncodeRoundTrip := by
  unfold Obligations.DecodeEncodeRoundTrip
  exact ⟨fun i _ => decode_encode i, fun _ _ => encode_of_decode⟩

/-- Settles O3: the named words are those that decode to no command; such a word is accepted like any other, and its
engine step completes with IllegalCommand. -/
theorem illegalWordsRaiseIllegalCommand : Obligations.IllegalWordsRaiseIllegalCommand := by
  unfold Obligations.IllegalWordsRaiseIllegalCommand
  intro w
  refine ⟨fun hw => ⟨fun s hb => ?_, fun s hr hp hd => ?_⟩, fun hw => ?_⟩
  · exact ⟨accept w s, writeWindow_idle_eq (regAt_cmd s.cfg) (by decide) hb, rfl⟩
  · obtain ⟨e, he⟩ := decode_error_iff.mpr hw
    rw [step_engine hr hp hd, engineStep_illegal s he]
    rfl
  · cases hd : decode w with
    | ok i => exact ⟨i, rfl⟩
    | error e => exact absurd (decode_error_iff.mp ⟨e, hd⟩) hw

/-- Settles O17: the equation of each operation, once the window answers. -/
theorem hostOperations : Obligations.HostOperations := by
  unfold Obligations.HostOperations
  exact fun s off hl => ⟨fun _ _ => hostOp_wr hl, fun _ _ => hostOp_rd hl, fun _ _ _ _ => hostOp_bnz_zero hl,
    fun _ _ _ _ _ => hostOp_bnz_taken hl, fun _ _ _ _ => hostOp_bnz_undefined hl, fun _ => rfl, rfl⟩

/-- Settles O18: what stands exactly once stands at the first place where it is found. -/
theorem labelIndexFindsTheLabel : Obligations.LabelIndexFindsTheLabel :=
  fun _ _ _ => labelIndex_eq_some_iff

/-- Settles O50: the inputs and the host agent because a command only completes and writes outputs, each output because
it stands in the column 'writes' of the commands excepted. -/
theorem commandFrame : Obligations.CommandFrame := by
  unfold Obligations.CommandFrame
  intro i s t h
  obtain ⟨ht, -⟩ := exec_performed h
  refine ⟨?_, ?_, exec_aesDraws h, exec_crcResult h, exec_skek h, exec_blobPt h, exec_blobCt h, exec_ctr16 h,
    exec_ctr_head h, fun a => bufByte_exec h⟩
  · rw [ht]
    exact ⟨rfl, rfl, rfl, rfl, rfl, rfl, rfl, rfl, rfl, rfl, rfl, rfl, rfl, rfl, rfl, rfl⟩
  · rw [ht]
    exact ⟨rfl, rfl, rfl, rfl, rfl, rfl, rfl, rfl⟩

/-- Settles O1: the seven words are the commands' encodings. -/
theorem commandWordsDecode : Obligations.CommandWordsDecode :=
  ⟨decode_encode .crc32, decode_encode .scramble, decode_encode .buildBlob, decode_encode .kwrap,
    decode_encode .blobSwap, decode_encode .extCtr, decode_encode .ctrCrypt⟩

/-- Settles O19: WRB group by group, RDB word by word; the others are written out. -/
theorem pseudoOperationsExpand : Obligations.PseudoOperationsExpand := by
  unfold Obligations.PseudoOperationsExpand
  refine ⟨fun _ => rfl, fun _ => rfl, fun _ _ => rfl, fun r _ _ => opWrbAt_getElem? r.base, fun r bytes h => ?_,
    fun r bytes h => ⟨?_, opWrbAt_rest r.base h⟩, fun r _ _ => opRdb_getElem? r, opRdb_length, rfl⟩
  all_goals
    rw [opWrb, opWrbAt_length]
    omega

/-- Settles O52: KEK is no operand of the others. -/
theorem onlyScrambleReadsKek : Obligations.OnlyScrambleReadsKek :=
  fun _ s k hi => exec_with_kek hi s k

end Sys2Proof.Claims

/-! SUPPORT. The CRC table and its update step, and what CRC32 does in each case of its length (41_crc32.md). -/

namespace Sys2Proof.Machine

/-! ### The update step (R69) -/

/-- The merge's masks split a word at bit 8, and a word shifted left by 8 has no bit below it. -/
theorem shiftLeft_xor_merge (c e : Word) :
    ((c <<< 8) ^^^ (e &&& (0xFFFFFF00 : Word))) ||| (e &&& (0xFF : Word)) = (c <<< 8) ^^^ e := by
  have hhigh : ∀ i < 32, (0xFFFFFF00 : Word).getLsbD i = !decide (i < 8) := by decide
  have hlow : ∀ i < 32, (0xFF : Word).getLsbD i = decide (i < 8) := by decide
  apply BitVec.eq_of_getLsbD_eq
  intro i hi
  rw [BitVec.getLsbD_or, BitVec.getLsbD_xor, BitVec.getLsbD_and, BitVec.getLsbD_and, BitVec.getLsbD_xor,
    hhigh i hi, hlow i hi, BitVec.getLsbD_shiftLeft]
  by_cases h : i < 8 <;> simp [h]

theorem crcStep_eq_shift_xor (t : CrcTable) (crc : Word) (b : Byte) :
    crcStep t crc b = (crc <<< 8) ^^^ crcTableEntry t (crc.extractLsb' 24 8 ^^^ b) :=
  shiftLeft_xor_merge crc _

/-! ### The table (R68) -/

/-- An index in the top byte of a word. -/
theorem byte_setWidth_shiftLeft (i : Nat) :
    (BitVec.ofNat 8 i).setWidth 32 <<< 24 = BitVec.ofNat 32 (i * 2 ^ 24) := by
  apply BitVec.eq_of_toNat_eq
  simp only [BitVec.toNat_shiftLeft, BitVec.toNat_setWidth, BitVec.toNat_ofNat, Nat.shiftLeft_eq]
  omega

/-- Eight shifts one inside the other are the fold that the rule writes. -/
theorem repeat_crcShift (c : Word) :
    Nat.repeat crcShift 8 c = (List.range 8).foldl (fun c _ => crcShift c) c := rfl

theorem crcTableEntry_msbFirst (i : Nat) :
    crcTableEntry .msbFirst (BitVec.ofNat 8 i) = Claims.generatedEntry i :=
  (congrArg (Nat.repeat crcShift 8) (byte_setWidth_shiftLeft i)).trans (repeat_crcShift _)

theorem crcTableEntry_msbFirst_list :
    (List.range 256).map (fun i => (crcTableEntry .msbFirst (BitVec.ofNat 8 i)).toNat) = Claims.specCrcTable := by
  decide +kernel

/-! ### The command (R71) -/

/-- The CRC of the bytes read from DATA_IN is the fold over their places. -/
theorem crc32_memRead_dataIn (t : CrcTable) (s : State) (n : Nat) :
    crc32 t (s.memRead dataInBase 0 n) =
      (List.range n).foldl (fun crc k => crcStep t crc (s.bufByte (dataInBase + k))) 0xFFFFFFFF :=
  List.foldl_map

theorem memRead_dataIn_congr {s s' : State} {n : Nat}
    (h : ∀ k < n, s.bufByte (dataInBase + k) = s'.bufByte (dataInBase + k)) :
    s.memRead dataInBase 0 n = s'.memRead dataInBase 0 n :=
  List.map_congr_left fun k hk => h k (List.mem_range.mp hk)

theorem exec_crc32_of_le {s : State} (h : s.len.toNat ≤ s.cfg.dataCap) :
    exec .crc32 s =
      .next (succeed { s with crcResult := crc32 s.cfg.crcTable (s.memRead dataInBase 0 s.len.toNat) }) := by
  rw [exec, execCrc32, if_neg (Nat.not_lt.mpr h)]

theorem exec_crc32_of_gt {s : State} (h : s.cfg.dataCap < s.len.toNat) :
    exec .crc32 s = .next (raise .inputSizeMismatch s) := by
  rw [exec, execCrc32, if_pos h]

end Sys2Proof.Machine

/-! ### The statements of 41_crc32.md -/

namespace Sys2Proof.Claims

open Sys2Proof.Machine

/-- Settles O27: the source's form by definition, the XOR form because the merge's masks split the word. -/
theorem crcStepIsShiftXor : Obligations.CrcStepIsShiftXor :=
  fun t crc b => ⟨rfl, crcStep_eq_shift_xor t crc b⟩

/-- Settles O28: the command's two cases, the CRC as the fold over the places of DATA_IN. -/
theorem crc32Result : Obligations.Crc32Result := by
  unfold Obligations.Crc32Result
  intro s
  constructor
  · intro h
    rw [exec_crc32_of_le h, crc32_memRead_dataIn]
    rfl
  · intro h
    rw [exec_crc32_of_gt h]
    rfl

/-- Settles O29: both states take the same case; in the legal one both read the same bytes. -/
theorem crc32ReadsOnlyItsInput : Obligations.Crc32ReadsOnlyItsInput := by
  unfold Obligations.Crc32ReadsOnlyItsInput
  intro s s' t t' hlen hcfg hbytes h h'
  rcases Nat.lt_or_ge s.cfg.dataCap s.len.toNat with hgt | hle
  · rw [exec_crc32_of_gt hgt] at h
    rw [exec_crc32_of_gt (by rwa [← hlen, ← hcfg])] at h'
    cases h
    cases h'
    exact ⟨rfl, fun hle => absurd hgt (Nat.not_lt.mpr hle), fun _ => ⟨rfl, rfl⟩⟩
  · have hread := memRead_dataIn_congr hbytes
    rw [exec_crc32_of_le hle] at h
    rw [exec_crc32_of_le (by rwa [← hlen, ← hcfg])] at h'
    cases h
    cases h'
    refine ⟨rfl, fun _ => ?_, fun hgt => absurd hle (Nat.not_le.mpr hgt)⟩
    simp only [succeed, complete_crcResult, ← hlen, ← hcfg, hread]

/-- Settles O55: the rule's generation for every index, the printed table entry by entry. -/
theorem crcTableHasTheSpecsEntries : Obligations.CrcTableHasTheSpecsEntries :=
  ⟨fun i _ => crcTableEntry_msbFirst i, crcTableEntry_msbFirst_list, rfl, by decide⟩

end Sys2Proof.Claims

/-! SUPPORT. The scramble function byte by byte, and what SCRAMBLE does with it (42_scrambler.md). -/

namespace Sys2Proof.Machine

section
variable (kek : Bytes 16) (scr : Bytes 4) (align : Byte) (ctxSel : BitVec 2)

theorem scramble_getElem {i : Nat} (hi : i < 16) :
    (scramble kek scr align ctxSel)[i] =
      if i / 4 = slot align ctxSel then kek[i] ^^^ scr[i % 4]'(Nat.mod_lt _ (by decide)) else kek[i] := by
  simp [scramble]

/-- A byte of the slot meets the same scramble byte twice, and xor cancels it; every other byte is never changed. -/
theorem scramble_scramble :
    scramble (scramble kek scr align ctxSel) scr align ctxSel = kek := by
  ext1 i hi
  rw [scramble_getElem, scramble_getElem]
  by_cases h : i / 4 = slot align ctxSel
  · rw [if_pos h, if_pos h, BitVec.xor_assoc, BitVec.xor_self, BitVec.xor_zero]
  · rw [if_neg h, if_neg h]

end

theorem exec_scramble (s : State) :
    exec .scramble s = .next (complete none { s with skek := scramble s.kek s.scr s.align s.ctxSel }) := rfl

theorem exec_scramble_skek {s t : State} (h : exec .scramble s = .next t) :
    t.skek = scramble s.kek s.scr s.align s.ctxSel := by
  cases h
  rfl

end Sys2Proof.Machine

/-! ### The statements of 42_scrambler.md -/

namespace Sys2Proof.Claims

open Sys2Proof.Machine

/-- Settles O31: the function by the cancelling xor, the core because SCRAMBLE leaves its other operands as they are. -/
theorem scrambleIsSelfInverse : Obligations.ScrambleIsSelfInverse := by
  unfold Obligations.ScrambleIsSelfInverse
  refine ⟨scramble_scramble, fun s t u ht hu => ?_⟩
  have hskek := exec_scramble_skek hu
  rw [exec_scramble] at ht
  cases ht
  exact hskek.trans (scramble_scramble s.kek s.scr s.align s.ctxSel)

/-- Settles O30: the command completes with the scramble function's bytes in SKEK. -/
theorem scrambleResult : Obligations.ScrambleResult := by
  unfold Obligations.ScrambleResult
  intro s
  refine ⟨_, exec_scramble s, rfl, fun i => ?_⟩
  rw [complete_skek]
  exact scramble_getElem s.kek s.scr s.align s.ctxSel i.isLt

end Sys2Proof.Claims

/-! SUPPORT. The word swap byte by byte, what a wrap round does and that an unwrap round undoes it, and the two commands
in each of their cases (43_keywrap.md). -/

namespace Sys2Proof.Machine

/-- Two slices that meet are one slice. -/
theorem slice_append_slice {n : Nat} (b : Bytes n) {i j l m : Nat} (hj : j = i + l) (h : i + (l + m) ≤ n) :
    slice b i l ++ slice b j m = slice b i (l + m) := by
  subst hj
  ext k hk : 1
  rw [slice_getElem _ _ _ _ hk (by omega), Vector.getElem_append]
  split
  · exact slice_getElem _ _ _ _ (by omega) (by omega)
  · rw [slice_getElem _ _ _ _ (by omega) (by omega)]
    congr 1
    omega

theorem msb64_getElem (b : Bytes 16) {m : Nat} (h : m < 8) : (msb64 b)[m] = b[m] := by
  rw [msb64, slice_getElem _ _ _ _ h (by omega)]
  congr 1
  omega

theorem lsb64_getElem (b : Bytes 16) {m : Nat} (h : m < 8) : (lsb64 b)[m] = b[8 + m] :=
  slice_getElem _ _ _ _ h (by omega)

/-! ### The word swap (R84, R85) -/

/-- Byte i of a swapped block comes from the same half, counted from its other end. -/
theorem wswap_getElem (b : Bytes 16) {i : Nat} (hi : i < 16) : (wswap b)[i] = b[8 * (i / 8) + (7 - i % 8)] := by
  rw [wswap]
  -- One case for each of the four sub-words.
  repeat' (rw [Vector.getElem_append]; split)
  all_goals
    rw [reversedSubWord_getElem _ _ _ (by omega)]
    congr 1
    omega

theorem wswap_wswap (b : Bytes 16) : wswap (wswap b) = b := by
  ext i hi : 1
  rw [wswap_getElem _ hi, wswap_getElem]
  congr 1
  omega

/-- Word m of a swapped blob is the swap of its word m (R86). -/
theorem slice_swapBlob (c : Bytes 48) {m : Nat} (hm : m < 3) :
    slice (swapBlob c) (16 * m) 16 = wswap (slice c (16 * m) 16) := by
  match m, hm with
  | 0, _ =>
    rw [swapBlob, slice_append_left _ _ _ _ (by decide), slice_append_left _ _ _ _ (by decide)]
    exact slice_whole _
  | 1, _ | 2, _ =>
    rw [swapBlob]
    repeat rw [slice_append_left _ _ _ _ (by decide)]
    rw [slice_append_right _ _ _ _ (by decide) (by decide)]
    exact slice_whole _

/-- The three words of a blob in their order are the blob. -/
theorem append_blobWords (c : Bytes 48) : slice c 0 16 ++ slice c 16 16 ++ slice c 32 16 = c := by
  rw [slice_append_slice _ rfl (by decide), slice_append_slice _ rfl (by decide)]
  exact slice_whole c

theorem swapBlob_swapBlob (c : Bytes 48) : swapBlob (swapBlob c) = c := by
  have hword {m : Nat} (hm : m < 3) : wswap (slice (swapBlob c) (16 * m) 16) = slice c (16 * m) 16 := by
    rw [slice_swapBlob c hm, wswap_wswap]
  calc swapBlob (swapBlob c)
    _ = slice c 0 16 ++ slice c 16 16 ++ slice c 32 16 :=
      congrArg₂ (· ++ ·) (congrArg₂ (· ++ ·) (hword (m := 0) (by decide)) (hword (m := 1) (by decide)))
        (hword (m := 2) (by decide))
    _ = c := append_blobWords c

/-! ### The registers of the wrap (R78, R79, R81) -/

theorem wrapInit_r (p : Bytes 40) (iv : Bytes 8) (i : Fin 5) : (wrapInit p iv).r[i] = slice p (8 * i.val) 8 := by
  simp [wrapInit]

/-- The chunks that a wrap starts from, in their order, are the plaintext. -/
theorem append_wrapInit_r (p : Bytes 40) (iv : Bytes 8) :
    (wrapInit p iv).r[0] ++ (wrapInit p iv).r[1] ++ (wrapInit p iv).r[2] ++ (wrapInit p iv).r[3] ++
      (wrapInit p iv).r[4] = p := by
  change slice p 0 8 ++ slice p 8 8 ++ slice p 16 8 ++ slice p 24 8 ++ slice p 32 8 = p
  repeat rw [slice_append_slice _ rfl (by decide)]
  exact slice_whole p

theorem wrapUpdate_a_getElem (j : Nat) (i : Fin 5) (b : Bytes 16) (w : WrapRegs) {m : Nat} (h : m < 8) :
    (wrapUpdate j i b w).a[m] = if m = 7 then b[7] ^^^ BitVec.ofNat 8 (roundCounter j i) else b[m] := by
  simp only [wrapUpdate, Vector.getElem_set, msb64_getElem, eq_comm (a := 7)]

theorem wrapUpdate_r_same (j : Nat) (i : Fin 5) (b : Bytes 16) (w : WrapRegs) :
    (wrapUpdate j i b w).r[i] = lsb64 b :=
  Vector.getElem_set_self ..

theorem wrapUpdate_r_other (j : Nat) {i i' : Fin 5} (b : Bytes 16) (w : WrapRegs) (h : i' ≠ i) :
    (wrapUpdate j i b w).r[i'] = w.r[i'] :=
  Vector.getElem_set_ne i.isLt i'.isLt fun hval => h (Fin.ext hval.symm)

/-- The counter meets itself in byte 7 of A and cancels. -/
theorem wrapUpdate_a_set_xor_counter (j : Nat) (i : Fin 5) (b : Bytes 16) (w : WrapRegs) :
    (wrapUpdate j i b w).a.set 7 ((wrapUpdate j i b w).a[7] ^^^ BitVec.ofNat 8 (roundCounter j i)) = msb64 b := by
  simp only [wrapUpdate, Vector.getElem_set_self, Vector.set_set, BitVec.xor_assoc, BitVec.xor_self,
    BitVec.xor_zero, Vector.set_getElem_self]

/-- R[i] written again after a round of inner index i forgets the round. -/
theorem wrapUpdate_r_set (j : Nat) (i : Fin 5) (b : Bytes 16) (w : WrapRegs) (x : Bytes 8) :
    (wrapUpdate j i b w).r.set i x = w.r.set i x :=
  Vector.set_set ..

/-- One round whose cipher invocation does not fail is the round's update with the cipher's output. -/
theorem wrapRounds_single {enc : Bytes 16 → Bytes 16 → Bytes 16} {kek : Bytes 16} {j : Nat} {i : Fin 5}
    {w : WrapRegs} {d : Draws Bool} (h : d.draw Config.aesFault 0 = false) :
    (wrapRounds enc kek [(j, i)] w d).1 = some (wrapUpdate j i (enc kek (w.a ++ w.r[i])) w) := by
  rw [wrapRounds_ok enc kek [(j, i)] w d fun k hk => by rwa [Nat.lt_one_iff.mp hk]]
  rfl

theorem slice_wrapOutput_a (w : WrapRegs) : slice (wrapOutput w) 0 8 = w.a := by
  rw [wrapOutput]
  repeat rw [slice_append_left _ _ _ _ (by decide)]
  exact slice_whole w.a

theorem slice_wrapOutput_r (w : WrapRegs) (i : Fin 5) : slice (wrapOutput w) (8 + 8 * i.val) 8 = w.r[i] := by
  match i with
  | 0 | 1 | 2 | 3 | 4 =>
    rw [wrapOutput]
    repeat rw [slice_append_left _ _ _ _ (by decide)]
    rw [slice_append_right _ _ _ _ (by decide) (by decide)]
    exact slice_whole _

/-! ### The unwrap (R88) -/

/-- A round of the wrap with a cipher that does not fail (R79). -/
def wrapRound (enc : Bytes 16 → Bytes 16 → Bytes 16) (kek : Bytes 16) (w : WrapRegs) (p : Nat × Fin 5) : WrapRegs :=
  wrapUpdate p.1 p.2 (enc kek (w.a ++ w.r[p.2])) w

theorem pureWrap_eq_foldl (enc : Bytes 16 → Bytes 16 → Bytes 16) (p : Bytes 40) (iv : Bytes 8) (kek : Bytes 16) :
    Claims.pureWrap enc p iv kek = wrapOutput (roundOrder.foldl (wrapRound enc kek) (wrapInit p iv)) := rfl

/-- The registers that the unwrap reads from a wrap's output are those it was made of. -/
theorem unwrap_wrapOutput (dec : Bytes 16 → Bytes 16 → Bytes 16) (w : WrapRegs) (kek : Bytes 16) :
    unwrap dec (wrapOutput w) kek =
      let u := roundOrder.reverse.foldl (unwrapRound dec kek) w
      (u.a, u.r[0] ++ u.r[1] ++ u.r[2] ++ u.r[3] ++ u.r[4]) := by
  have hr : (Vector.ofFn fun i : Fin 5 => slice (wrapOutput w) (8 * (i.val + 1)) 8) = w.r := by
    ext1 i hi
    rw [Vector.getElem_ofFn, Nat.mul_succ, Nat.add_comm]
    exact slice_wrapOutput_r w ⟨i, hi⟩
  rw [unwrap, hr, slice_wrapOutput_a]

section
variable {enc dec : Bytes 16 → Bytes 16 → Bytes 16} {kek : Bytes 16}

/-- The block that is decrypted is the cipher's output, which the decryption takes back to A ++ R[i]. -/
theorem unwrapRound_wrapRound (hdec : ∀ b, dec kek (enc kek b) = b) (w : WrapRegs) (p : Nat × Fin 5) :
    unwrapRound dec kek (wrapRound enc kek w p) p = w := by
  obtain ⟨j, i⟩ := p
  simp only [wrapRound, unwrapRound, wrapUpdate_a_set_xor_counter, wrapUpdate_r_same, wrapUpdate_r_set,
    msb64_append_lsb64, hdec, msb64_append, lsb64_append]
  exact congrArg (WrapRegs.mk w.a) (Vector.set_getElem_self ..)

/-- Undoing each of a list of rounds from the last to the first gives back the registers before the first. -/
theorem foldl_unwrapRound_foldl_wrapRound (hdec : ∀ b, dec kek (enc kek b) = b) (rs : List (Nat × Fin 5))
    (w : WrapRegs) : rs.reverse.foldl (unwrapRound dec kek) (rs.foldl (wrapRound enc kek) w) = w := by
  induction rs generalizing w with
  | nil => rfl
  | cons p rs ih =>
    simp only [List.reverse_cons, List.foldl_append, List.foldl_cons, List.foldl_nil, ih]
    exact unwrapRound_wrapRound hdec w p

theorem unwrap_pureWrap (hdec : ∀ b, dec kek (enc kek b) = b) (p : Bytes 40) (iv : Bytes 8) :
    unwrap dec (Claims.pureWrap enc p iv kek) kek = (iv, p) := by
  rw [pureWrap_eq_foldl, unwrap_wrapOutput, foldl_unwrapRound_foldl_wrapRound hdec]
  exact congrArg (Prod.mk iv) (append_wrapInit_r p iv)

end

/-! ### The commands (R82, R86) -/

theorem exec_kwrap_of_no_failure {s : State} (h : Safety.NoAesFailure s 30) :
    exec .kwrap s = .next (succeed { s with
      blobCt := Claims.pureWrap (cipherFn s.cfg.cipher) s.blobPt s.iv s.skek
      aesDraws := Claims.drawsAfter s.aesDraws 30 }) := by
  simp only [exec, execKwrap, wrap, wrapRounds_ok _ _ roundOrder _ s.aesDraws h]
  rfl

theorem exec_kwrap_of_first_failure {s : State} {k : Nat} (hk : k < 30)
    (hok : ∀ j < k, s.aesDraws.draw Config.aesFault j = false) (hf : s.aesDraws.draw Config.aesFault k = true) :
    exec .kwrap s = .next (raise .blockCipherFailure { s with
      aesDraws := Claims.drawsAfter s.aesDraws (k + 1) }) := by
  simp only [exec, execKwrap, wrap, wrapRounds_fail _ _ roundOrder _ s.aesDraws k hk hok hf]
  rfl

theorem exec_blobSwap (s : State) : exec .blobSwap s = .next (complete none { s with blobCt := swapBlob s.blobCt }) :=
  rfl

theorem exec_blobSwap_blobCt {s t : State} (h : exec .blobSwap s = .next t) : t.blobCt = swapBlob s.blobCt := by
  cases h
  rfl

end Sys2Proof.Machine

/-! ### The statements of 43_keywrap.md -/

namespace Sys2Proof.Claims

open Sys2Proof.Machine

/-- Settles O34: two closed lists of 30 entries. -/
theorem wrapRoundOrder : Obligations.WrapRoundOrder := by
  unfold Obligations.WrapRoundOrder
  decide

/-- Settles O35: the command in its two cases, the rounds folded or cut short at the first failure. -/
theorem kwrapResult : Obligations.KwrapResult :=
  fun _ => ⟨exec_kwrap_of_no_failure, fun _ hk hok hf => exec_kwrap_of_first_failure hk hok hf⟩

/-- Settles O36: the rounds undone one by one from the last, and the swap is its own inverse. -/
theorem unwrapInvertsWrap : Obligations.UnwrapInvertsWrap := by
  unfold Obligations.UnwrapInvertsWrap
  intro enc dec p iv k hdec
  rw [swapBlob_swapBlob]
  exact ⟨unwrap_pureWrap hdec p iv, unwrap_pureWrap hdec p iv⟩

/-- Settles O37: byte i of the swap comes from place 7 - i of the same half. -/
theorem wordSwapReversesHalves : Obligations.WordSwapReversesHalves := by
  unfold Obligations.WordSwapReversesHalves
  refine fun b => ⟨fun i h => ⟨?_, ?_⟩, wswap_wswap b⟩
  · rw [wswap_getElem]
    congr 1
    omega
  · rw [wswap_getElem]
    congr 1
    omega

/-- Settles O38: the command completes with the swapped blob, whose words are the swapped words. -/
theorem blobSwapResult : Obligations.BlobSwapResult :=
  fun s => ⟨_, exec_blobSwap s, rfl, fun _ => slice_swapBlob s.blobCt⟩

/-- Settles O39: the second swap undoes the first. -/
theorem secondBlobSwapRestores : Obligations.SecondBlobSwapRestores := by
  unfold Obligations.SecondBlobSwapRestores
  intro s t u ht hu
  rw [exec_blobSwap_blobCt hu, exec_blobSwap_blobCt ht, swapBlob_swapBlob]

/-- Settles O56: the start, one round and the output of the wrap, register by register. -/
theorem wrapRoundFields : Obligations.WrapRoundFields := by
  unfold Obligations.WrapRoundFields
  refine ⟨fun p iv => ⟨rfl, fun i m h => ?_⟩, fun j i b w => ⟨?_, fun m h => ?_, ?_⟩, ?_, ?_⟩
  · rw [wrapInit_r, slice_getElem _ _ _ _ h (by omega)]
  · exact fun _ => wrapUpdate_a_getElem j i b w
  · rw [wrapUpdate_r_same, lsb64_getElem]
  · exact fun _ => wrapUpdate_r_other j b w
  · exact fun _ _ _ _ _ _ => wrapRounds_single
  · exact fun w => ⟨slice_wrapOutput_a w, slice_wrapOutput_r w⟩

end Sys2Proof.Claims

/-! SUPPORT. The range check as comparisons of numbers, the blob slice by slice, and what BUILD_BLOB does in each case
of the check (44_keyblob.md). -/

namespace Sys2Proof.Machine

/-! ### The range check (R95) -/

theorem rangeOk_iff {startAddr endAddr flashBase : Word} : rangeOk startAddr endAddr flashBase = true ↔
    startAddr.toNat < endAddr.toNat ∧ flashBase.toNat ≤ startAddr.toNat ∧ flashBase.toNat ≤ endAddr.toNat := by
  simp only [rangeOk, Bool.and_eq_true, decide_eq_true_eq, BitVec.lt_def, BitVec.le_def, and_assoc]

/-! ### The blob (R92, R94) -/

/-- The second part of a concatenation, as a slice of it. -/
theorem slice_append_second {n m : Nat} (a : Bytes n) (b : Bytes m) : slice (a ++ b) n m = b := by
  rw [slice_append_right a b n m le_rfl le_rfl, Nat.sub_self, slice_whole]

/-- Bytes 0..35 of the blob that a state's operands give. -/
def State.blobHead (s : State) : Bytes 36 :=
  Machine.blobHead s.imgKey s.ctr8 s.startAddr (s.endAddr ||| s.endFlags)

section
variable (s : State) (crc : Bytes 4)

theorem slice_blob_imgKey : slice (s.blobHead ++ crc) 0 16 = s.imgKey := by
  rw [State.blobHead, blobHead]
  repeat rw [slice_append_left _ _ _ _ (by decide)]
  exact slice_whole s.imgKey

theorem slice_blob_ctr8 : slice (s.blobHead ++ crc) 16 8 = s.ctr8 := by
  rw [State.blobHead, blobHead]
  repeat rw [slice_append_left _ _ _ _ (by decide)]
  exact slice_append_second s.imgKey s.ctr8

theorem slice_blob_startAddr : slice (s.blobHead ++ crc) 24 4 = le32 s.startAddr := by
  rw [State.blobHead, blobHead]
  repeat rw [slice_append_left _ _ _ _ (by decide)]
  exact slice_append_second (s.imgKey ++ s.ctr8) _

theorem slice_blob_endWord : slice (s.blobHead ++ crc) 28 4 = le32 (s.endAddr ||| s.endFlags) := by
  rw [State.blobHead, blobHead]
  repeat rw [slice_append_left _ _ _ _ (by decide)]
  exact slice_append_second (s.imgKey ++ s.ctr8 ++ le32 s.startAddr) _

theorem slice_blob_filler : slice (s.blobHead ++ crc) 32 4 = #v[0, 0, 0, 0] := by
  rw [State.blobHead, blobHead, slice_append_left _ _ _ _ (by decide)]
  exact slice_append_second (s.imgKey ++ s.ctr8 ++ le32 s.startAddr ++ le32 (s.endAddr ||| s.endFlags)) (le32 0)

end

/-! ### The command (R93, R96) -/

theorem exec_buildBlob_of_rangeOk {s : State} (h : rangeOk s.startAddr s.endAddr s.cfg.flashBase = true) :
    exec .buildBlob s = .next (complete none { s with
      blobPt := s.blobHead ++ storedCrc s.cfg.crcStoreOrder (blobCrc s.cfg.crcTable s.blobHead)
      crcResult := blobCrc s.cfg.crcTable s.blobHead }) := by
  rw [exec, execBuildBlob, if_pos h]
  rfl

theorem exec_buildBlob_of_not_rangeOk {s : State} (h : rangeOk s.startAddr s.endAddr s.cfg.flashBase = false) :
    exec .buildBlob s = .next (complete (some .addressRangeInvalid) s) := by
  rw [exec, execBuildBlob, if_neg (Bool.eq_false_iff.mp h)]
  rfl

end Sys2Proof.Machine

/-! ### The statements of 44_keyblob.md -/

namespace Sys2Proof.Claims

open Sys2Proof.Machine

/-- Settles O33: the blob is its head and the stored CRC; each field is a slice of the one or the other. -/
theorem buildBlobResult : Obligations.BuildBlobResult := by
  unfold Obligations.BuildBlobResult
  refine fun s => ⟨fun h => ⟨_, exec_buildBlob_of_rangeOk h, ?_⟩, exec_buildBlob_of_not_rangeOk⟩
  rw [complete_blobPt, complete_crcResult]
  refine ⟨rfl, slice_blob_imgKey s _, slice_blob_ctr8 s _, slice_blob_startAddr s _, slice_blob_endWord s _,
    slice_blob_filler s _, ?_, fun ho => ?_, fun ho => ?_⟩
  · rw [blobCrc, slice_append_left _ _ _ _ (by decide)]
  · rw [slice_append_second, ho, storedCrc]
  · rw [slice_append_second, ho, storedCrc]

/-- Settles O32: a base not above the start is not above an end that is greater. -/
theorem rangeCheck : Obligations.RangeCheck := by
  unfold Obligations.RangeCheck
  refine fun startAddr endAddr flashBase => ⟨rangeOk_iff, rangeOk_iff.trans ⟨?_, ?_⟩⟩
  · rintro ⟨hlt, hstart, -⟩
    exact ⟨hlt, hstart⟩
  · rintro ⟨hlt, hstart⟩
    exact ⟨hlt, hstart, hstart.trans hlt.le⟩

end Sys2Proof.Claims

/-! SUPPORT. The extended counter field by field, the CTR function in each of its two cases, and what EXT_CTR and
CTR_CRYPT do (45_otfad_ctr.md). -/

namespace Sys2Proof.Machine

/-! ### The extended counter (R101) -/

section
variable (ctr8 : Bytes 8) (base : Word)

theorem slice_extendCtr_ctr8 : slice (extendCtr ctr8 base) 0 8 = ctr8 := by
  rw [extendCtr]
  repeat rw [slice_append_left _ _ _ _ (by decide)]
  exact slice_whole ctr8

theorem slice_extendCtr_addr : slice (extendCtr ctr8 base) 12 4 = be32 base :=
  slice_append_second (ctr8 ++ ctrDigest ctr8) (be32 base)

theorem slice_extendCtr_digest : slice (extendCtr ctr8 base) 8 4 = ctrDigest ctr8 := by
  rw [extendCtr, slice_append_left _ _ _ _ (by decide)]
  exact slice_append_second ctr8 (ctrDigest ctr8)

theorem ctrDigest_getElem {i : Nat} (h : i < 4) : (ctrDigest ctr8)[i] = ctr8[i] ^^^ ctr8[4 + i] := by
  rw [ctrDigest, xorBytes_getElem, slice_getElem _ _ _ _ h (by omega), slice_getElem _ _ _ _ h (by omega)]
  simp only [Nat.zero_add]

theorem extendCtr_getElem_digest {i : Nat} (h : i < 4) :
    (extendCtr ctr8 base)[8 + i] = ctr8[i] ^^^ ctr8[4 + i] := by
  rw [← slice_getElem _ 8 4 i h (by omega)]
  simp only [slice_extendCtr_digest, ctrDigest_getElem ctr8 h]

end

/-! ### The CTR function (R104, R106, R111) -/

/-- The blocks XORed each with its own keystream (R104, R106). -/
def xorKeystream (enc : Bytes 16 → Bytes 16 → Bytes 16) (key ctr16 : Bytes 16) (base : Word)
    (pt : List (Bytes 16)) : List (Bytes 16) :=
  pt.mapIdx fun k p => xorBytes p (Claims.keystream enc key ctr16 base k)

/-- The counter after n blocks: the last block's, or the first counter where there is none (R110). -/
def counterAfter (ctr16 : Bytes 16) (base : Word) (n : Nat) : Bytes 16 :=
  if n = 0 then ctr16 else effective ctr16 (blockAddr base (n - 1))

theorem counterAfter_zero (c : Bytes 16) (base : Word) : counterAfter c base 0 = c := rfl

theorem counterAfter_of_pos (c : Bytes 16) (base : Word) {n : Nat} (h : 0 < n) :
    counterAfter c base n = effective c (blockAddr base (n - 1)) :=
  if_neg h.ne'

section
variable (enc : Bytes 16 → Bytes 16 → Bytes 16) (key c : Bytes 16) (base : Word) {pt : List (Bytes 16)}

theorem xorKeystream_length : (xorKeystream enc key c base pt).length = pt.length := List.length_mapIdx

theorem xorKeystream_getElem {k : Nat} (h : k < pt.length) :
    (xorKeystream enc key c base pt)[k]'(by rwa [xorKeystream_length]) =
      xorBytes pt[k] (Claims.keystream enc key c base k) := by
  simp only [xorKeystream, List.getElem_mapIdx]

/-- Each block meets the same keystream twice, and xor cancels it. -/
theorem xorKeystream_xorKeystream : xorKeystream enc key c base (xorKeystream enc key c base pt) = pt := by
  simp only [xorKeystream, List.mapIdx_mapIdx, Function.comp_def, xorBytes_xorBytes]
  exact List.mapIdx_eq_iff.mpr fun k => by simp

variable {d : Draws Bool}

theorem otfadCtr_of_no_failure (h : ∀ k < pt.length, d.draw Config.aesFault k = false) :
    otfadCtr enc pt key c base d =
      ⟨some (xorKeystream enc key c base pt), counterAfter c base pt.length, Claims.drawsAfter d pt.length⟩ := by
  rw [otfadCtr, ctrBlocks_ok _ _ _ _ _ _ _ h]
  simp only [Nat.zero_add]
  rfl

theorem otfadCtr_of_first_failure {k : Nat} (hk : k < pt.length)
    (hok : ∀ j < k, d.draw Config.aesFault j = false) (hf : d.draw Config.aesFault k = true) :
    otfadCtr enc pt key c base d = ⟨none, effective c (blockAddr base k), Claims.drawsAfter d (k + 1)⟩ := by
  rw [otfadCtr, ctrBlocks_fail _ _ _ _ _ _ _ k hk hok hf, Nat.zero_add]
  rfl

end

section
variable {enc : Bytes 16 → Bytes 16 → Bytes 16} {key c : Bytes 16} {base : Word} {pt : List (Bytes 16)}
  {d : Draws Bool}

/-- A failing invocation leaves no output, so an output is the whole of the blocks XORed with the keystream. -/
theorem eq_xorKeystream_of_otfadCtr_out {ct : List (Bytes 16)} (h : (otfadCtr enc pt key c base d).out = some ct) :
    ct = xorKeystream enc key c base pt := by
  rcases draws_ok_or_first_failure d pt.length with hok | ⟨k, hk, hok, hf⟩
  · rw [otfadCtr_of_no_failure enc key c base hok] at h
    exact (Option.some.inj h).symm
  · rw [otfadCtr_of_first_failure enc key c base hk hok hf] at h
    cases h

/-- The first block's address overwrites bytes 12 to 15 before anything reads them (R114). -/
theorem otfadCtr_congr_head {c' : Bytes 16} (hpt : pt ≠ []) (h : slice c 0 12 = slice c' 0 12) :
    otfadCtr enc pt key c base d = otfadCtr enc pt key c' base d := by
  cases pt with
  | nil => contradiction
  | cons p ps => simp only [otfadCtr, ctrBlocks, effective_congr h]

end

theorem inBlocks_getElem (s : State) {n k i : Nat} (hk : k < n) (hi : i < 16) :
    ((s.inBlocks n)[k]'(by rwa [inBlocks_length]))[i] = s.bufByte (dataInBase + (16 * k + i)) := by
  simp [State.inBlocks]

/-! ### The commands (R105, R107 to R111) -/

theorem exec_extCtr (s : State) :
    exec .extCtr s = .next (complete none { s with ctr16 := extendCtr s.ctr8 s.baseAddr }) := rfl

/-- The state in which CTR_CRYPT is done with its blocks, its output not written yet. -/
def State.afterBlocks (s : State) (ctr16 : Bytes 16) (n : Nat) : State :=
  { s with ctr16 := ctr16, aesDraws := Claims.drawsAfter s.aesDraws n }

/-- The output blocks of a CTR_CRYPT none of whose invocations fails. -/
def State.outBlocks (s : State) : List (Bytes 16) :=
  xorKeystream (cipherFn s.cfg.cipher) s.imgKey s.ctr16 s.baseAddr (s.inBlocks (s.len.toNat / 16))

section
variable {s : State}

theorem outBlocks_length : s.outBlocks.length = s.len.toNat / 16 := by
  rw [State.outBlocks, xorKeystream_length, inBlocks_length]

theorem outBlocks_getElem {k i : Nat} (hk : k < s.len.toNat / 16) (hi : i < 16) :
    (s.outBlocks[k]'(by rwa [outBlocks_length]))[i] = s.bufByte (dataInBase + (16 * k + i)) ^^^
      (Claims.keystream (cipherFn s.cfg.cipher) s.imgKey s.ctr16 s.baseAddr k)[i] := by
  have hin : k < (s.inBlocks (s.len.toNat / 16)).length := by rwa [inBlocks_length]
  simp only [State.outBlocks, xorKeystream_getElem _ _ _ _ hin, xorBytes_getElem, inBlocks_getElem s hk hi]

theorem exec_ctrCrypt_of_no_failure (hlen : ctrLengthOk s.cfg s.len = true)
    (h : Safety.NoAesFailure s (s.len.toNat / 16)) :
    exec .ctrCrypt s = .next (complete none
      ((s.afterBlocks (counterAfter s.ctr16 s.baseAddr (s.len.toNat / 16)) (s.len.toNat / 16)).memWrite
        dataOutBase 0 (s.outBlocks.flatMap Vector.toList))) := by
  rw [exec, execCtrCrypt, if_pos hlen, otfadCtr_of_no_failure _ _ _ _ (by rwa [inBlocks_length]), inBlocks_length]
  rfl

theorem exec_ctrCrypt_of_first_failure (hlen : ctrLengthOk s.cfg s.len = true) {k : Nat}
    (hk : k < s.len.toNat / 16) (hok : ∀ j < k, s.aesDraws.draw Config.aesFault j = false)
    (hf : s.aesDraws.draw Config.aesFault k = true) :
    exec .ctrCrypt s = .next (complete (some .blockCipherFailure)
      (s.afterBlocks (effective s.ctr16 (blockAddr s.baseAddr k)) (k + 1))) := by
  rw [exec, execCtrCrypt, if_pos hlen, otfadCtr_of_first_failure _ _ _ _ (by rwa [inBlocks_length]) hok hf]
  rfl

theorem exec_ctrCrypt_of_length_error (hlen : ctrLengthOk s.cfg s.len = false) :
    exec .ctrCrypt s = .next (complete (some .inputSizeMismatch) s) := by
  rw [exec, execCtrCrypt, if_neg (Bool.eq_false_iff.mp hlen)]
  rfl

/-- A CTR_CRYPT with a legal LEN that raised no error met no failure, so its counter is the one after all blocks. -/
theorem exec_ctrCrypt_ctr16 {t : State} (hlen : ctrLengthOk s.cfg s.len = true) (h : exec .ctrCrypt s = .next t)
    (herr : t.err = none) : t.ctr16 = counterAfter s.ctr16 s.baseAddr (s.len.toNat / 16) := by
  rcases draws_ok_or_first_failure s.aesDraws (s.len.toNat / 16) with hok | ⟨k, hk, hok, hf⟩
  · rw [exec_ctrCrypt_of_no_failure hlen hok] at h
    cases h
    rfl
  · rw [exec_ctrCrypt_of_first_failure hlen hk hok hf] at h
    cases h
    cases herr

end

/-- The address of the last block of a whole number of blocks (R110). -/
theorem blockAddr_last {base len : Word} (hmod : len.toNat % 16 = 0) (h : 16 ≤ len.toNat) :
    blockAddr base (len.toNat / 16 - 1) = base + (len - 16) := by
  rw [blockAddr, show 16 * (len.toNat / 16 - 1) = len.toNat - 16 by omega]
  congr 1
  bv_omega

end Sys2Proof.Machine

/-! ### The statements of 45_otfad_ctr.md -/

namespace Sys2Proof.Claims

open Sys2Proof.Machine

/-- Settles O41: the command completes with the extended counter; each field is a slice or a byte of it. -/
theorem extCtrResult : Obligations.ExtCtrResult :=
  fun s => ⟨_, exec_extCtr s, rfl, slice_extendCtr_ctr8 s.ctr8 s.baseAddr,
    fun i => extendCtr_getElem_digest s.ctr8 s.baseAddr i.isLt, slice_extendCtr_addr s.ctr8 s.baseAddr⟩

/-- Settles O42: byte i of block k written is that of the k-th output block, and the rest is the command's frame. -/
theorem ctrCryptResult : Obligations.CtrCryptResult := by
  unfold Obligations.CtrCryptResult
  intro s hcap hmod hok
  have h := exec_ctrCrypt_of_no_failure (ctrLengthOk_iff.mpr ⟨hcap, hmod⟩) hok
  refine ⟨_, h, rfl, fun k hk i => ?_, fun a ha => bufByte_exec h (.inr ha)⟩
  have hk' : k < s.outBlocks.length := by rwa [outBlocks_length]
  have hin : 16 * k + i.val < (s.outBlocks.flatMap Vector.toList).length := by
    rw [flatMap_toList_length]
    omega
  calc _ = (s.outBlocks.flatMap Vector.toList)[16 * k + i.val] :=
        State.bufByte_memWrite_inside (s.afterBlocks _ _) dataOutBase 0 _ _ hin
    _ = s.outBlocks[k][i.val] := flatMap_toList_getElem _ k i.val hk' i.isLt
    _ = _ := outBlocks_getElem hk i.isLt

/-- Settles O43: the counter after all blocks, which is the last block's where there is one. -/
theorem counterAfterSuccess : Obligations.CounterAfterSuccess := by
  unfold Obligations.CounterAfterSuccess
  intro s t hlen h herr
  rw [exec_ctrCrypt_ctr16 hlen h herr]
  refine ⟨fun hge => ?_, fun hzero => ?_⟩
  · rw [counterAfter_of_pos _ _ (by omega), blockAddr_last (ctrLengthOk_iff.mp hlen).2 hge]
    exact ⟨slice_effective_head _ _, slice_effective_addr _ _⟩
  · rw [hzero]
    exact counterAfter_zero _ _

/-- Settles O44: the length check is not met. -/
theorem ctrCryptLengthError : Obligations.CtrCryptLengthError := by
  unfold Obligations.CtrCryptLengthError
  intro s h
  refine exec_ctrCrypt_of_length_error (Bool.eq_false_iff.mpr fun hlen => ?_)
  obtain ⟨hcap, hmod⟩ := ctrLengthOk_iff.mp hlen
  omega

/-- Settles O45: the command in its failing case; its counter is the failing block's. -/
theorem ctrCryptFailure : Obligations.CtrCryptFailure :=
  fun _ _ hlen hk hok hf => ⟨_, exec_ctrCrypt_of_first_failure hlen hk hok hf, rfl,
    slice_effective_head _ _, slice_effective_addr _ _⟩

/-- Settles O46: the output is the input XORed with the keystream, and so is the output's output. -/
theorem ctrIsSelfInverse : Obligations.CtrIsSelfInverse := by
  unfold Obligations.CtrIsSelfInverse
  intro enc pt ct key c base d d' hout hok
  obtain rfl := eq_xorKeystream_of_otfadCtr_out hout
  rw [otfadCtr_of_no_failure enc key c base (by rwa [xorKeystream_length]), xorKeystream_xorKeystream]

/-- Settles O47: the first block overwrites bytes 12 to 15, and the core has a block when LEN is at least 16. -/
theorem counterAddressFieldIsDead : Obligations.CounterAddressFieldIsDead := by
  unfold Obligations.CounterAddressFieldIsDead
  refine ⟨fun _ _ _ _ _ _ _ hpt h => otfadCtr_congr_head hpt h, fun s c hlen hge h => ?_⟩
  have hblocks : s.inBlocks (s.len.toNat / 16) ≠ [] := by
    rw [← List.length_pos_iff, inBlocks_length]
    omega
  have hrun := otfadCtr_congr_head (enc := cipherFn s.cfg.cipher) (key := s.imgKey) (base := s.baseAddr)
    (d := s.aesDraws) hblocks h
  rw [exec, exec, execCtrCrypt, execCtrCrypt, if_pos hlen, if_pos hlen, ← hrun]
  rfl

end Sys2Proof.Claims

/-! SUPPORT. The errors of the commands: which command raises which, and the state that it leaves (60_exceptions.md). -/

namespace Sys2Proof.Machine

/-- `Raises s i e t`: from s the command i completes with the error e in the state t. A failing cipher invocation has
consulted draws, and under CTR_CRYPT its block's address stands in the counter already (R111). -/
inductive Raises (s : State) : Instr → CmdError → State → Prop
  | crc32Length : Raises s .crc32 .inputSizeMismatch (raise .inputSizeMismatch s)
  | buildBlobRange : Raises s .buildBlob .addressRangeInvalid (raise .addressRangeInvalid s)
  | kwrapCipher (n : Nat) : Raises s .kwrap .blockCipherFailure
      (raise .blockCipherFailure { s with aesDraws := Claims.drawsAfter s.aesDraws n })
  | ctrCryptLength : Raises s .ctrCrypt .inputSizeMismatch (raise .inputSizeMismatch s)
  | ctrCryptCipher (k : Nat) : Raises s .ctrCrypt .blockCipherFailure
      (raise .blockCipherFailure (s.afterBlocks (effective s.ctr16 (blockAddr s.baseAddr k)) (k + 1)))

section
variable {s t : State} {e : CmdError}

theorem exec_crc32_raises (h : exec .crc32 s = .next t) (herr : t.err = some e) : Raises s .crc32 e t := by
  by_cases hlen : s.cfg.dataCap < s.len.toNat
  · cases h.symm.trans (exec_crc32_of_gt hlen)
    cases herr
    exact .crc32Length
  · cases h.symm.trans (exec_crc32_of_le (Nat.not_lt.mp hlen))
    cases herr

theorem exec_buildBlob_raises (h : exec .buildBlob s = .next t) (herr : t.err = some e) : Raises s .buildBlob e t := by
  cases hrange : rangeOk s.startAddr s.endAddr s.cfg.flashBase with
  | false =>
    cases h.symm.trans (exec_buildBlob_of_not_rangeOk hrange)
    cases herr
    exact .buildBlobRange
  | true =>
    cases h.symm.trans (exec_buildBlob_of_rangeOk hrange)
    cases herr

theorem exec_kwrap_raises (h : exec .kwrap s = .next t) (herr : t.err = some e) : Raises s .kwrap e t := by
  rcases draws_ok_or_first_failure s.aesDraws 30 with hok | ⟨k, hk, hok, hf⟩
  · cases h.symm.trans (exec_kwrap_of_no_failure hok)
    cases herr
  · cases h.symm.trans (exec_kwrap_of_first_failure hk hok hf)
    cases herr
    exact .kwrapCipher (k + 1)

theorem exec_ctrCrypt_raises (h : exec .ctrCrypt s = .next t) (herr : t.err = some e) : Raises s .ctrCrypt e t := by
  cases hlen : ctrLengthOk s.cfg s.len with
  | false =>
    cases h.symm.trans (exec_ctrCrypt_of_length_error hlen)
    cases herr
    exact .ctrCryptLength
  | true =>
    rcases draws_ok_or_first_failure s.aesDraws (s.len.toNat / 16) with hok | ⟨k, hk, hok, hf⟩
    · cases h.symm.trans (exec_ctrCrypt_of_no_failure hlen hok)
      cases herr
    · cases h.symm.trans (exec_ctrCrypt_of_first_failure hlen hk hok hf)
      cases herr
      exact .ctrCryptCipher k

/-- All that a command which completes with an error can have done (R116); the commands without a check raise none. -/
theorem exec_raises {i : Instr} (h : exec i s = .next t) (herr : t.err = some e) : Raises s i e t := by
  cases i with
  | crc32 => exact exec_crc32_raises h herr
  | buildBlob => exact exec_buildBlob_raises h herr
  | kwrap => exact exec_kwrap_raises h herr
  | ctrCrypt => exact exec_ctrCrypt_raises h herr
  | scramble | blobSwap | extCtr =>
    cases h
    cases herr

end

end Sys2Proof.Machine

/-! ### The statements of 60_exceptions.md -/

namespace Sys2Proof.Claims

open Sys2Proof.Machine

/-- Settles O48: a failed check has written nothing yet; a failed invocation only draws and, under CTR_CRYPT, the
address field of the counter. -/
theorem errorsArePrecise : Obligations.ErrorsArePrecise := by
  unfold Obligations.ErrorsArePrecise
  intro i s t e h herr
  cases exec_raises h herr with
  | crc32Length | buildBlobRange | ctrCryptLength => exact ⟨rfl, rfl, fun _ => ⟨rfl, fun _ => rfl⟩⟩
  | kwrapCipher => exact ⟨rfl, rfl, fun _ => ⟨rfl, fun he => absurd rfl he⟩⟩
  | ctrCryptCipher => exact ⟨rfl, slice_effective_head _ _, fun hi => absurd ⟨rfl, rfl⟩ hi⟩

/-- Settles O49: each way to raise an error stands in the table of R116. -/
theorem errorsByCommand : Obligations.ErrorsByCommand := by
  unfold Obligations.ErrorsByCommand
  intro i s t e h herr
  cases exec_raises h herr with
  | crc32Length => exact .inl ⟨rfl, .inl rfl⟩
  | ctrCryptLength => exact .inl ⟨rfl, .inr rfl⟩
  | kwrapCipher => exact .inr (.inl ⟨rfl, .inl rfl⟩)
  | ctrCryptCipher => exact .inr (.inl ⟨rfl, .inr rfl⟩)
  | buildBlobRange => exact .inr (.inr ⟨rfl, rfl⟩)

end Sys2Proof.Claims

/-! SUPPORT. Reset, the two paths of R136, and what a run carries along: the stand of BLOB_CT with its one swap, the
words of the registers, and the bytes of DATA_IN (70_reset_and_hazards.md). -/

namespace Sys2Proof.Machine

theorem step_reset {s : State} (hr : s.resetPin = true) : step s = .next (coreReset s) := by
  simp [step, hr]

/-! ### BLOB_CT over the steps of a run (R82, R86, R135) -/

/-- The wrap that a KWRAP performed in s makes (R82). -/
def State.wrappedBlob (s : State) : Bytes 48 :=
  Claims.pureWrap (cipherFn s.cfg.cipher) s.blobPt s.iv s.skek

theorem exec_kwrap_blobCt_of_success {s t : State} (h : exec .kwrap s = .next t) (herr : t.err = none) :
    t.blobCt = s.wrappedBlob := by
  rcases draws_ok_or_first_failure s.aesDraws 30 with hok | ⟨k, hk, hok, hf⟩
  · cases h.symm.trans (exec_kwrap_of_no_failure hok)
    rfl
  · cases h.symm.trans (exec_kwrap_of_first_failure hk hok hf)
    cases herr

theorem exec_kwrap_blobCt_of_error {s t : State} {e : CmdError} (h : exec .kwrap s = .next t)
    (herr : t.err = some e) : t.blobCt = s.blobCt := by
  cases exec_kwrap_raises h herr
  rfl

theorem hostOp_blobCt {op : HostOp} {s t : State} (h : hostOp op s = .next t) : t.blobCt = s.blobCt := by
  obtain ⟨u, rfl | rfl | ⟨off, w, -, hw⟩, l, pc, rfl⟩ := hostOp_cases h
  · rfl
  · rfl
  · rcases writeWindow_some hw with ⟨-, rfl⟩ | ⟨-, -, rfl⟩ | ⟨-, -, r, k, -, -, rfl⟩
    · rfl
    · rfl
    · obtain ⟨-, -, -, -, -, -, -, hblob⟩ := writeReg_frame r k w s
      exact hblob

/-! ### The paths of R136: what each command reads and writes -/

/-- s with the registers that the key-blob path writes, and the pending command and STATUS, as they are in a. -/
def State.keyPathOf (s a : State) : State :=
  { s with
    skek := a.skek, blobPt := a.blobPt, crcResult := a.crcResult, blobCt := a.blobCt
    pending := a.pending, done := a.done, err := a.err }

/-- s with the register and the buffers that the image path writes, and the pending command and STATUS, as they are
in b. -/
def State.imagePathOf (s b : State) : State :=
  { s with ctr16 := b.ctr16, mem := b.mem, pending := b.pending, done := b.done, err := b.err }

/-- s after n AES invocations. -/
def State.afterDraws (s : State) (n : Nat) : State := { s with aesDraws := Claims.drawsAfter s.aesDraws n }

theorem drawsAfter_drawsAfter (d : Draws Bool) (k n : Nat) :
    Claims.drawsAfter (Claims.drawsAfter d k) n = Claims.drawsAfter d (k + n) := by
  simp only [Claims.drawsAfter, List.drop_drop, Nat.add_assoc]

theorem noAesFailure_afterDraws {s : State} {k n m : Nat} (h : Safety.NoAesFailure s m) (hm : k + n ≤ m) :
    Safety.NoAesFailure (s.afterDraws k) n := fun j hj =>
  (Draws.draw_mk Config.aesFault s.aesDraws k j).trans (h (k + j) (by omega))

/-- From s, whatever draws have been used before, i makes n AES invocations and, when none of them fails, completes
with e in f s. -/
def Performs (i : Instr) (n : Nat) (e : Option CmdError) (f : State → State) (s : State) : Prop :=
  ∀ k, Safety.NoAesFailure (s.afterDraws k) n →
    exec i (s.afterDraws k) = .next (complete e ((f s).afterDraws (k + n)))

/-- A command of the key-blob path does the same whatever the image path left. -/
theorem performs_keyPath {i : Instr} (hi : i = .scramble ∨ i = .buildBlob ∨ i = .kwrap ∨ i = .blobSwap) (s : State) :
    ∃ n ≤ 30, ∃ e a, ∀ b, Performs i n e (·.keyPathOf a) (s.imagePathOf b) := by
  rcases hi with rfl | rfl | rfl | rfl
  · exact ⟨0, by decide, none, { s with skek := scramble s.kek s.scr s.align s.ctxSel }, fun _ _ _ => rfl⟩
  · cases hrange : rangeOk s.startAddr s.endAddr s.cfg.flashBase with
    | true =>
      -- opaque, or rfl computes the CRC
      generalize hcrc : blobCrc s.cfg.crcTable s.blobHead = crc
      refine ⟨0, by decide, none,
        { s with blobPt := s.blobHead ++ storedCrc s.cfg.crcStoreOrder crc, crcResult := crc }, fun b k _ => ?_⟩
      have hhead : ((s.imagePathOf b).afterDraws k).blobHead = s.blobHead := rfl
      have hcfg : ((s.imagePathOf b).afterDraws k).cfg = s.cfg := rfl
      rw [exec_buildBlob_of_rangeOk (s := (s.imagePathOf b).afterDraws k) hrange, hhead, hcfg, hcrc]
      rfl
    | false =>
      refine ⟨0, by decide, some .addressRangeInvalid, s, fun b k _ => ?_⟩
      exact exec_buildBlob_of_not_rangeOk (s := (s.imagePathOf b).afterDraws k) hrange
  · refine ⟨30, le_rfl, none, { s with blobCt := s.wrappedBlob }, fun b k hok => ?_⟩
    rw [exec_kwrap_of_no_failure hok, State.afterDraws, drawsAfter_drawsAfter]
    rfl
  · exact ⟨0, by decide, none, { s with blobCt := swapBlob s.blobCt }, fun _ _ _ => rfl⟩

/-- A command of the image path does the same whatever the key-blob path left. -/
theorem performs_imagePath {j : Instr} (hj : j = .extCtr ∨ j = .ctrCrypt) (s : State) :
    ∃ n ≤ s.len.toNat / 16, ∃ e b, ∀ a, Performs j n e (·.imagePathOf b) (s.keyPathOf a) := by
  rcases hj with rfl | rfl
  · exact ⟨0, Nat.zero_le _, none, { s with ctr16 := extendCtr s.ctr8 s.baseAddr }, fun _ _ _ => rfl⟩
  · cases hlen : ctrLengthOk s.cfg s.len with
    | false =>
      refine ⟨0, Nat.zero_le _, some .inputSizeMismatch, s, fun a k _ => ?_⟩
      exact exec_ctrCrypt_of_length_error (s := (s.keyPathOf a).afterDraws k) hlen
    | true =>
      refine ⟨s.len.toNat / 16, le_rfl, none,
        (s.afterBlocks (counterAfter s.ctr16 s.baseAddr (s.len.toNat / 16)) 0).memWrite dataOutBase 0
          (s.outBlocks.flatMap Vector.toList), fun a k hok => ?_⟩
      rw [exec_ctrCrypt_of_no_failure (s := (s.keyPathOf a).afterDraws k) hlen hok, State.afterBlocks,
        State.afterDraws, drawsAfter_drawsAfter]
      rfl

/-! ### Stored bytes -/

/-- A bulk write takes no stored byte away. -/
theorem Memory.isSome_read_writeBytes (bs : List Byte) {m : Memory} (a : Nat) {b : Nat}
    (h : (m.read b).isSome = true) : ((m.writeBytes a bs).read b).isSome = true := by
  induction bs generalizing m a with
  | nil => exact h
  | cons v bs ih =>
    refine ih (a + 1) ?_
    rw [Memory.read_write]
    split
    · rfl
    · exact h

section
variable {s t : State}

theorem isSome_read_exec {i : Instr} (h : exec i s = .next t) {a : Nat} (ha : (s.mem.read a).isSome = true) :
    (t.mem.read a).isSome = true := by
  obtain ⟨-, hmem | ⟨-, -, bs, -, hmem⟩⟩ := exec_performed h
  · rwa [hmem]
  · rw [hmem]
    exact Memory.isSome_read_writeBytes bs _ ha

theorem isSome_read_writeReg (r : Reg) (k : Nat) (w : Word) {a : Nat} (ha : (s.mem.read a).isSome = true) :
    ((writeReg r k w s).mem.read a).isSome = true := by
  by_cases hr : r = .dataIn
  · subst hr
    exact Memory.isSome_read_writeBytes _ _ ha
  · rwa [writeReg_mem k w s hr]

theorem isSome_read_hostOp {op : HostOp} (h : hostOp op s = .next t) {a : Nat} (ha : (s.mem.read a).isSome = true) :
    (t.mem.read a).isSome = true := by
  obtain ⟨u, rfl | rfl | ⟨off, w, -, hw⟩, l, pc, rfl⟩ := hostOp_cases h
  · exact ha
  · exact ha
  · rcases writeWindow_some hw with ⟨-, rfl⟩ | ⟨-, -, rfl⟩ | ⟨-, -, r, k, -, -, rfl⟩
    · exact ha
    · exact ha
    · exact isSome_read_writeReg r k w ha

end

/-! ### The words of the registers after a command -/

/-- A word of a register that keeps no status and is no data buffer: what a command can read as an operand. -/
structure RegisterWord (cfg : Config) (r : Reg) (k : Nat) : Prop where
  inside : 4 * k < r.size cfg
  notStatus : r ≠ .status
  notDataIn : r ≠ .dataIn
  notDataOut : r ≠ .dataOut

theorem RegisterWord.lt {cfg : Config} {r : Reg} {k n : Nat} (hp : RegisterWord cfg r k)
    (hsize : r.size cfg = 4 * n) : k < n := by
  have hinside := hp.inside
  omega

/-- Only the two data buffers have a size that the configuration gives (R18). -/
theorem Reg.size_eq_of_not_buffer {r : Reg} (hin : r ≠ .dataIn) (hout : r ≠ .dataOut) (cfg cfg' : Config) :
    r.size cfg = r.size cfg' := by
  cases r with
  | dataIn | dataOut => contradiction
  | _ => rfl

/-- Only STATUS reads the pending command and the flags, and no register reads the engine's delay (R20). -/
theorem regWord_with_status (s : State) (pending : Option Word) (done ovr : Bool) (err : Option CmdError) (delay : Nat)
    (delays : Draws Nat) {r : Reg} (k : Nat) (hr : r ≠ .status) :
    { s with pending, done, ovr, err, delay, delays }.regWord r k = s.regWord r k := by
  cases r with
  | status => contradiction
  | _ => rfl

theorem regWord_complete (e : Option CmdError) (s : State) {r : Reg} (k : Nat) (hr : r ≠ .status) :
    (complete e s).regWord r k = s.regWord r k :=
  regWord_with_status s _ _ _ _ _ _ k hr

/-- A word within the first m bytes depends on those bytes only. -/
theorem wordAt_congr_head {n m : Nat} {b c : Bytes n} (h : slice b 0 m = slice c 0 m) {k : Nat} (hk : 4 * k + 4 ≤ m)
    (hm : m ≤ n) : wordAt b k = wordAt c k := by
  have hword (a : Bytes n) : slice a (4 * k) 4 = slice (slice a 0 m) (4 * k) 4 := by
    ext i hi : 1
    rw [slice_getElem _ _ _ _ hi (by omega), slice_getElem _ _ _ _ hi (by omega),
      slice_getElem _ _ _ _ (by omega) (by omega)]
    congr 1
    omega
  rw [wordAt, wordAt, hword b, hword c, h]

section
variable {i : Instr} {s t : State} {r : Reg} {k : Nat}

/-- A command leaves every register alone that the column 'writes' of R64 does not name for it. -/
theorem regWord_exec_of_not_output (h : exec i s = .next t) (hp : RegisterWord s.cfg r k)
    (hout : commandOutput i r = false) : t.regWord r k = s.regWord r k := by
  have hne {j : Instr} (hj : commandOutput j r = true) : i ≠ j := by
    rintro rfl
    rw [hj] at hout
    cases hout
  cases r with
  | status => exact absurd rfl hp.notStatus
  | dataIn => exact absurd rfl hp.notDataIn
  | dataOut => exact absurd rfl hp.notDataOut
  | crcResult => exact exec_crcResult h (hne rfl) (hne rfl)
  | skek => exact congrArg (wordAt · k) (exec_skek h (hne rfl))
  | blobPt => exact congrArg (wordAt · k) (exec_blobPt h (hne rfl))
  | blobCt => simp only [State.regWord, State.blobFile, exec_blobCt h (hne rfl) (hne rfl)]
  | ctr16 => exact congrArg (wordAt · k) (exec_ctr16 h (hne rfl) (hne rfl))
  | _ =>
    obtain ⟨ht, -⟩ := exec_performed h
    rw [ht]
    rfl

/-- The words of an output of R64 are counted as outputs of the command, but for the padding of BLOB_CT and, under
CTR_CRYPT, the words of CTR16 before the address field. -/
theorem mem_outputWords_of_commandOutput (hout : commandOutput i r = true) {cfg : Config} (hp : RegisterWord cfg r k) :
    (r, k) ∈ Safety.outputWords i ∨ hardWired r k = true ∨ (i = .ctrCrypt ∧ r = .ctr16 ∧ k < 3) := by
  cases i with
  | crc32 | scramble | extCtr =>
    obtain rfl := beq_iff_eq.mp hout
    exact .inl (Safety.mem_wordsOf.mpr ⟨rfl, hp.lt rfl⟩)
  | kwrap | blobSwap =>
    obtain rfl := beq_iff_eq.mp hout
    by_cases hk : k < 12
    · exact .inl (Safety.mem_wordsOf.mpr ⟨rfl, hk⟩)
    · exact .inr (.inl (hardWired_iff.mpr ⟨rfl, by omega⟩))
  | buildBlob =>
    refine .inl (List.mem_append.mpr ?_)
    rcases Bool.or_eq_true_iff.mp hout with hr | hr
    · obtain rfl := beq_iff_eq.mp hr
      exact .inl (Safety.mem_wordsOf.mpr ⟨rfl, hp.lt rfl⟩)
    · obtain rfl := beq_iff_eq.mp hr
      exact .inr (Safety.mem_wordsOf.mpr ⟨rfl, hp.lt rfl⟩)
  | ctrCrypt =>
    have hr : r = .ctr16 := beq_iff_eq.mp ((Bool.or_eq_true_iff.mp hout).resolve_left
      fun hr => hp.notDataOut (beq_iff_eq.mp hr))
    subst hr
    by_cases hk : k < 3
    · exact .inr (.inr ⟨rfl, rfl, hk⟩)
    · have hlt : k < 4 := hp.lt rfl
      obtain rfl : k = 3 := by omega
      exact .inl (List.mem_singleton.mpr rfl)

/-- A command changes no register word but its output words. -/
theorem regWord_exec (h : exec i s = .next t) (hp : RegisterWord s.cfg r k) :
    (r, k) ∈ Safety.outputWords i ∨ t.regWord r k = s.regWord r k := by
  cases hout : commandOutput i r with
  | false => exact .inr (regWord_exec_of_not_output h hp hout)
  | true =>
    rcases mem_outputWords_of_commandOutput hout hp with hmem | hpad | ⟨rfl, rfl, hk⟩
    · exact .inl hmem
    · obtain ⟨rfl, hlow⟩ := hardWired_iff.mp hpad
      have hhigh : k < 16 := hp.lt rfl
      exact .inr ((regWord_blobCt_padding t hlow hhigh).trans (regWord_blobCt_padding s hlow hhigh).symm)
    · exact .inr (wordAt_congr_head (exec_ctr_head h (by decide)) (by omega) (by decide))

/-- With no block CTR_CRYPT leaves its counter alone (R110). -/
theorem exec_ctrCrypt_ctr16_of_no_block (h : exec .ctrCrypt s = .next t) (hlen : s.len = 0) : t.ctr16 = s.ctr16 := by
  have hok : ctrLengthOk s.cfg s.len = true := by simp [ctrLengthOk, hlen]
  have hnone : Safety.NoAesFailure s (s.len.toNat / 16) := fun k hk => by simp [hlen] at hk
  cases h.symm.trans (exec_ctrCrypt_of_no_failure hok hnone)
  rw [complete_ctr16, hlen]
  rfl

/-- A command whose outputs do not count as written, after an error or for want of a block, changes no register
word. -/
theorem regWord_exec_of_no_result (h : exec i s = .next t) (hp : RegisterWord s.cfg r k)
    (hno : ¬ ((t.err = none ∧ ¬ (i = .ctrCrypt ∧ s.len = 0)) ∨ (t.err = some .blockCipherFailure ∧ i = .ctrCrypt))) :
    t.regWord r k = s.regWord r k := by
  obtain ⟨hsuccess, hfailure⟩ := not_or.mp hno
  cases herr : t.err with
  | none =>
    obtain ⟨rfl, hlen⟩ : i = .ctrCrypt ∧ s.len = 0 := by
      by_contra hblock
      exact hsuccess ⟨herr, hblock⟩
    by_cases hr : r = .ctr16
    · subst hr
      exact congrArg (wordAt · k) (exec_ctrCrypt_ctr16_of_no_block h hlen)
    · refine regWord_exec_of_not_output h hp ?_
      simp [commandOutput, hr, hp.notDataOut]
  | some e =>
    cases exec_raises h herr with
    | crc32Length | buildBlobRange | ctrCryptLength | kwrapCipher =>
      exact regWord_complete _ _ k hp.notStatus
    | ctrCryptCipher => exact absurd ⟨rfl, rfl⟩ hfailure

/-- A command changes no register word but those that count as its results. -/
theorem mem_resultWords_or_regWord_exec (h : exec i s = .next t) (hp : RegisterWord s.cfg r k) :
    (r, k) ∈ Safety.resultWords i s t ∨ t.regWord r k = s.regWord r k := by
  unfold Safety.resultWords
  split_ifs with hres
  · exact regWord_exec h hp
  · exact .inr (regWord_exec_of_no_result h hp hres)

/-! ### The words of the registers after a host operation -/

theorem storesHostWrite_iff : Safety.storesHostWrite r = true ↔ r ∈ Claims.readWriteRegs := by
  cases r <;> decide

/-- A host write that a register does not store leaves the register's words alone. -/
theorem regWord_writeReg_of_not_stored (hr : Safety.storesHostWrite r = false) (hstatus : r ≠ .status) (w : Word)
    (k' : Nat) : (writeReg r k w s).regWord r k' = s.regWord r k' := by
  cases r with
  | status => contradiction
  | cmd | flashBase | crcResult | blobCt | dataOut => rfl
  | _ => cases hr

/-- A host write to a register leaves the words of every other register alone, whatever the sizes of the buffers. -/
theorem regWord_writeReg_of_ne {r' : Reg} {k' : Nat} (hp : RegisterWord s.cfg r' k') (hne : r' ≠ r) (w : Word) :
    (writeReg r k w s).regWord r' k' = s.regWord r' k' := by
  cases r' with
  | status => exact absurd rfl hp.notStatus
  | dataIn => exact absurd rfl hp.notDataIn
  | dataOut => exact absurd rfl hp.notDataOut
  | blobCt =>
    obtain ⟨-, -, -, -, -, -, -, hblob⟩ := writeReg_frame r k w s
    simp only [State.regWord, State.blobFile, hblob]
  | _ => cases r <;> first | contradiction | simp [State.regWord, writeReg]

/-- A host write changes no register word but the one it names, and that only where it is stored. -/
theorem regWord_writeReg {off : Nat} {r' : Reg} {k' : Nat} (w : Word) (hreg : regAt s.cfg off = some (r, k))
    (hp : RegisterWord s.cfg r' k') : ((r', k') = (r, k) ∧ Safety.storesHostWrite r = true) ∨
      (writeReg r k w s).regWord r' k' = s.regWord r' k' := by
  by_cases hr : r' = r
  · subst hr
    cases hstores : Safety.storesHostWrite r' with
    | false => exact .inr (regWord_writeReg_of_not_stored hstores hp.notStatus w k')
    | true =>
      by_cases hk : k' = k
      · exact .inl ⟨by rw [hk], rfl⟩
      · have hstored := storesHostWrite_iff.mp hstores
        exact .inr (Claims.regWord_writeReg_other_word hstored (regAt_some hreg).2 hp.inside hk w)
  · exact .inr (regWord_writeReg_of_ne hp hr w)

theorem mem_hostWrites {off : Nat} {w : Word} {p : Reg × Nat} : p ∈ Safety.hostWrites (.wr off w) s ↔
    regAt s.cfg off = some p ∧ Safety.storesHostWrite p.1 = true ∧ s.busy = false := by
  simp [Safety.hostWrites]

theorem mem_hostWrites_or_regWord_writeWindow {off : Nat} {w : Word} (h : writeWindow off w s = some t)
    (hp : RegisterWord s.cfg r k) : (r, k) ∈ Safety.hostWrites (.wr off w) s ∨ t.regWord r k = s.regWord r k := by
  rcases writeWindow_some h with ⟨-, rfl⟩ | ⟨-, -, rfl⟩ | ⟨-, hidle, r', k', hreg, -, rfl⟩
  · exact .inr (regWord_with_status s _ _ _ _ _ _ k hp.notStatus)
  · exact .inr (regWord_with_status s _ _ _ _ _ _ k hp.notStatus)
  · rcases regWord_writeReg w hreg hp with ⟨heq, hstores⟩ | hkept
    · cases heq
      exact .inl (mem_hostWrites.mpr ⟨hreg, hstores, hidle⟩)
    · exact .inr hkept

theorem writeWindow_of_hostOp_wr {off : Nat} {w : Word} (h : hostOp (.wr off w) s = .next t) :
    ∃ u, writeWindow off w s = some u ∧ t = hostNext u := by
  simp only [hostOp, busWrite_base_add] at h
  split at h
  · cases h
  · rename_i u hu
    cases h
    exact ⟨u, (Option.ite_none_right_eq_some.mp hu).2, rfl⟩

/-- A host operation changes no register word but those it writes. -/
theorem mem_hostWrites_or_regWord_hostOp {op : HostOp} (h : hostOp op s = .next t) (hp : RegisterWord s.cfg r k) :
    (r, k) ∈ Safety.hostWrites op s ∨ t.regWord r k = s.regWord r k := by
  obtain ⟨u, rfl | rfl | ⟨off, w, rfl, hw⟩, l, pc, rfl⟩ := hostOp_cases h
  · exact .inr rfl
  · exact .inr rfl
  · exact mem_hostWrites_or_regWord_writeWindow (t := u) hw hp

/-! ### The words of the registers after a reset -/

theorem regWord_coreReset_congr (hcfg : t.cfg = s.cfg) (hp : RegisterWord s.cfg r k) :
    (coreReset t).regWord r k = (coreReset s).regWord r k := by
  cases r with
  | status => exact absurd rfl hp.notStatus
  | dataIn => exact absurd rfl hp.notDataIn
  | dataOut => exact absurd rfl hp.notDataOut
  | flashBase => exact congrArg Config.flashBase hcfg
  | _ => rfl

theorem regWord_with_resets (n : Nat) (hp : RegisterWord s.cfg r k) :
    { s with resets := n }.regWord r k = s.regWord r k := by
  cases r with
  | dataIn => exact absurd rfl hp.notDataIn
  | dataOut => exact absurd rfl hp.notDataOut
  | _ => rfl

end

end Sys2Proof.Machine

namespace Sys2Proof.Safety

open Sys2Proof.Machine

/-! ### What the next step is to BLOB_CT -/

section
variable {s t : State}

theorem blobEvent_reset (hr : s.resetPin = true) : blobEvent s t = some .cleared := by
  simp [blobEvent, hr]

theorem blobEvent_performing {i : Instr} (hi : performing s = some i) : blobEvent s t = commandEvent i t := by
  obtain ⟨hr, -⟩ := performing_iff.mp hi
  simp [blobEvent, hr, hi]

theorem commandEvent_kwrap_of_success (h : t.err = none) : commandEvent .kwrap t = some .wrapped := by
  simp [commandEvent, h]

theorem commandEvent_kwrap_of_error {e : CmdError} (h : t.err = some e) : commandEvent .kwrap t = none := by
  simp [commandEvent, h]

theorem blobEvent_idle (hr : s.resetPin = false) (hn : performing s = none) (hh : hostActs s = none) :
    blobEvent s t = none := by
  simp [blobEvent, hr, hn, hh]

theorem blobEvent_host {op : HostOp} (hr : s.resetPin = false) (hn : performing s = none)
    (hh : hostActs s = some op) : blobEvent s t = if readsBlob s.cfg op then some .read else none := by
  simp [blobEvent, hr, hn, hh]

/-- Only the performing of a KWRAP wraps. -/
theorem performing_of_blobEvent_wrapped (h : step s = .next t) (he : blobEvent s t = some .wrapped) :
    performing s = some .kwrap := by
  rcases step_kinds h with ⟨hr, -⟩ | ⟨-, i, hi, -⟩ | ⟨hr, hn, hh, -⟩ | ⟨hr, hn, op, d, hh, -⟩
  · rw [blobEvent_reset hr] at he
    cases he
  · rw [blobEvent_performing hi] at he
    cases i with
    | kwrap => exact hi
    | _ => cases he
  · rw [blobEvent_idle hr hn hh] at he
    cases he
  · rw [blobEvent_host hr hn hh] at he
    split at he <;> cases he

end

/-- What the stand of BLOB_CT says of its content, W being the wraps that count: a raw wrap is one of them, a swapped
wrap is one of them swapped once. -/
def BlobHolds (W : Bytes 48 → Prop) (s : State) : BlobStand → Prop
  | .noWrap => True
  | .raw => W s.blobCt
  | .swapped => ∃ w, W w ∧ s.blobCt = swapBlob w

/-- One of the next n steps of s performs a KWRAP that makes the wrap w. -/
def WrapOfRun (n : Nat) (s : State) (w : Bytes 48) : Prop :=
  ∃ m < n, ∃ u, core.run m s = .next u ∧ performing u = some .kwrap ∧ w = u.wrappedBlob

/-! ### What holds along a run -/

section
variable {P : Words → State → Bool} {I : Words → State → Prop}

/-- What an invariant implies holds along every run from it. -/
theorem alongRun_of_invariant (hstep : ∀ W s t, I W s → step s = .next t → I (writtenAfter W s t) t)
    (hP : ∀ W s, I W s → P W s = true) {n : Nat} {W : Words} {s : State} (hI : I W s) : AlongRun P n W s = true := by
  induction n generalizing W s with
  | zero => rfl
  | succ n ih =>
    rw [AlongRun, hP W s hI, Bool.true_and]
    split
    · rename_i t ht
      exact ih (hstep W s t hI ht)
    · rfl
    · rfl

/-- What holds along a run holds, with every invariant, of each state before the last. -/
theorem alongRun_reached (hstep : ∀ W s t, I W s → step s = .next t → I (writtenAfter W s t) t) {n m : Nat}
    {W : Words} {s u : State} (hrun : AlongRun P n W s = true) (hI : I W s) (hm : m < n)
    (hu : core.run m s = .next u) : ∃ W', I W' u ∧ P W' u = true := by
  induction m generalizing n W s with
  | zero =>
    cases hu
    cases n with
    | zero => omega
    | succ n =>
      rw [AlongRun, Bool.and_eq_true] at hrun
      exact ⟨W, hI, hrun.1⟩
  | succ m ih =>
    obtain ⟨t, ht, hrest⟩ := core_run_succ_next hu
    cases n with
    | zero => omega
    | succ n =>
      rw [alongRun_next ht, Bool.and_eq_true] at hrun
      exact ih hrun.2 (hstep W s t hI ht) (Nat.lt_of_succ_lt_succ hm) hrest

end

/-! ### The words written in a step -/

section
variable {W : Words} {s t : State}

theorem writtenAfter_reset (hr : s.resetPin = true) : writtenAfter W s t = [] := by
  simp [writtenAfter, hr]

theorem writtenAfter_performing {i : Instr} (hi : performing s = some i) :
    writtenAfter W s t = resultWords i s t ++ W := by
  obtain ⟨hr, -⟩ := performing_iff.mp hi
  simp [writtenAfter, hr, hi]

theorem writtenAfter_idle (hr : s.resetPin = false) (hn : performing s = none) (hh : hostActs s = none) :
    writtenAfter W s t = W := by
  simp [writtenAfter, hr, hn, hh]

theorem writtenAfter_host {op : HostOp} (hr : s.resetPin = false) (hn : performing s = none)
    (hh : hostActs s = some op) : writtenAfter W s t = hostWrites op s ++ W := by
  simp [writtenAfter, hr, hn, hh]

/-- A step other than a reset takes no written word away. -/
theorem mem_writtenAfter_of_mem (hr : s.resetPin = false) {p : Reg × Nat} (hp : p ∈ W) : p ∈ writtenAfter W s t := by
  cases hi : performing s with
  | some i =>
    rw [writtenAfter_performing hi]
    exact List.mem_append_right _ hp
  | none =>
    cases hh : hostActs s with
    | some op =>
      rw [writtenAfter_host hr hi hh]
      exact List.mem_append_right _ hp
    | none => rwa [writtenAfter_idle hr hi hh]

/-- A step other than a reset changes no register word but those it counts as written. -/
theorem mem_writtenAfter_or_regWord_step (h : step s = .next t) (hr : s.resetPin = false) {r : Reg} {k : Nat}
    (hp : RegisterWord s.cfg r k) : (r, k) ∈ writtenAfter W s t ∨ t.regWord r k = s.regWord r k := by
  rcases step_kinds h with ⟨hreset, -⟩ | ⟨-, i, hi, hx⟩ | ⟨-, hn, hh, ht⟩ | ⟨-, hn, op, d, hh, ho⟩
  · rw [hr] at hreset
    cases hreset
  · rw [writtenAfter_performing hi]
    exact (mem_resultWords_or_regWord_exec hx hp).imp_left (List.mem_append_left W)
  · right
    rcases ht with rfl | ⟨d, rfl⟩
    · exact regWord_complete _ s k hp.notStatus
    · rfl
  · rw [writtenAfter_host hr hn hh]
    exact (mem_hostWrites_or_regWord_hostOp (s := { s with delay := d }) ho hp).imp_left (List.mem_append_left W)

end

/-! ### Operands (R138 (b)) -/

theorem knownWord_iff {W : Words} {s : State} {p : Reg × Nat} :
    knownWord W s p = true ↔ p ∈ W ∨ s.regWord p.1 p.2 = (coreReset s).regWord p.1 p.2 := by
  simp [knownWord]

/-- The operands of R64 are words of registers. -/
theorem registerWord_of_mem_operandWords (cfg : Config) {i : Instr} {p : Reg × Nat} (hp : p ∈ operandWords i) :
    RegisterWord cfg p.1 p.2 := by
  have hall : ∀ p ∈ operandWords i,
      4 * p.2 < p.1.size Config.chip ∧ p.1 ≠ .status ∧ p.1 ≠ .dataIn ∧ p.1 ≠ .dataOut := by
    cases i <;> decide
  obtain ⟨hinside, hstatus, hin, hout⟩ := hall p hp
  exact ⟨Reg.size_eq_of_not_buffer hin hout Config.chip cfg ▸ hinside, hstatus, hin, hout⟩

/-- Every register word was written by the program or has its reset value. -/
def RegistersKnown (W : Words) (s : State) : Prop :=
  ∀ r k, RegisterWord s.cfg r k → knownWord W s (r, k) = true

theorem registersKnown_coreReset (W : Words) (s : State) : RegistersKnown W (coreReset s) :=
  fun _ _ hp => knownWord_iff.mpr (.inr (regWord_coreReset_congr (t := coreReset s) (s := s) rfl hp).symm)

theorem registersKnown_of_fromReset {s : State} (h : FromReset s) : RegistersKnown [] s := by
  intro r k hp
  have hs : s.regWord r k = { coreReset s with resets := s.resets }.regWord r k := congrArg (·.regWord r k) h
  exact knownWord_iff.mpr (.inr (hs.trans (regWord_with_resets (s := coreReset s) s.resets hp)))

theorem RegistersKnown.step {W : Words} {s t : State} (hs : RegistersKnown W s) (h : step s = .next t) :
    RegistersKnown (writtenAfter W s t) t := by
  obtain ⟨hcfg, -⟩ := Claims.stepKeepsParametersAndProgram s t h
  cases hr : s.resetPin with
  | true =>
    rw [step_reset hr] at h
    cases h
    exact registersKnown_coreReset _ s
  | false =>
    intro r k hp
    rw [hcfg] at hp
    rw [knownWord_iff, regWord_coreReset_congr hcfg hp]
    rcases mem_writtenAfter_or_regWord_step h hr hp with hmem | hkept
    · exact .inl hmem
    · rw [hkept]
      exact (knownWord_iff.mp (hs r k hp)).imp_left (mem_writtenAfter_of_mem hr)

/-! ### Input (R138 (c)) -/

/-- Each byte of word k of DATA_IN has been written. -/
def WordStored (s : State) (k : Nat) : Prop := ∀ j < 4, (s.mem.read (dataInBase + (4 * k + j))).isSome = true

theorem dataInWritten_of_wordStored {s : State} {n : Nat} (h : ∀ k < (n + 3) / 4, WordStored s k) :
    DataInWritten s n := by
  intro k hk
  rw [← Nat.div_add_mod k 4]
  exact h (k / 4) (by omega) (k % 4) (Nat.mod_lt k (by decide))

/-- What the program wrote of DATA_IN is stored. -/
def InputStored (W : Words) (s : State) : Prop := ∀ k, (.dataIn, k) ∈ W → WordStored s k

/-- No command writes DATA_IN (R64). -/
theorem dataIn_not_mem_resultWords (i : Instr) (s t : State) (k : Nat) : (.dataIn, k) ∉ resultWords i s t := by
  have hout : (.dataIn, k) ∉ outputWords i := by
    cases i <;> simp [outputWords, mem_wordsOf]
  unfold resultWords
  split_ifs
  · exact hout
  · exact List.not_mem_nil

section
variable {s t : State}

theorem wordStored_writeReg_dataIn (k : Nat) (w : Word) (s : State) : WordStored (writeReg .dataIn k w s) k := by
  intro j hj
  have hlane : j < (le32 w).toList.length := by rwa [Vector.length_toList]
  rw [← Nat.add_assoc]
  exact Option.isSome_iff_exists.mpr ⟨_, Memory.read_writeBytes_inside _ s.mem _ j hlane⟩

/-- A word of DATA_IN that a host operation wrote is stored. -/
theorem wordStored_hostOp {op : HostOp} (h : hostOp op s = .next t) {k : Nat}
    (hk : (.dataIn, k) ∈ hostWrites op s) : WordStored t k := by
  cases op with
  | wr off w =>
    obtain ⟨hreg, -, hidle⟩ := mem_hostWrites.mp hk
    obtain ⟨u, hu, rfl⟩ := writeWindow_of_hostOp_wr h
    rw [writeWindow_idle_eq hreg (by decide) hidle] at hu
    cases hu
    exact wordStored_writeReg_dataIn k w s
  | _ => cases hk

theorem InputStored.step {W : Words} (hs : InputStored W s) (h : step s = .next t) :
    InputStored (writtenAfter W s t) t := by
  intro k hk
  rcases step_kinds h with ⟨hr, -⟩ | ⟨-, i, hi, hx⟩ | ⟨hr, hn, hh, ht⟩ | ⟨hr, hn, op, d, hh, ho⟩
  · rw [writtenAfter_reset hr] at hk
    cases hk
  · rw [writtenAfter_performing hi, List.mem_append] at hk
    have hW := hs k (hk.resolve_left (dataIn_not_mem_resultWords i s t k))
    exact fun j hj => isSome_read_exec hx (hW j hj)
  · rw [writtenAfter_idle hr hn hh] at hk
    rcases ht with rfl | ⟨d, rfl⟩ <;> exact hs k hk
  · rw [writtenAfter_host hr hn hh, List.mem_append] at hk
    rcases hk with hk | hk
    · exact wordStored_hostOp (s := { s with delay := d }) ho hk
    · exact fun j hj => isSome_read_hostOp (s := { s with delay := d }) ho (hs k hk j hj)

end

end Sys2Proof.Safety

/-! ### The statements of 70_reset_and_hazards.md -/

namespace Sys2Proof.Claims

open Sys2Proof.Machine Sys2Proof.Safety

/-- Settles O7: each value is a closed one, but for FLASH_BASE and the buffers, which are their free values. -/
theorem resetStateHasResetValues : Obligations.ResetStateHasResetValues where
  pending := rfl
  status := rfl
  cmd := rfl
  numeric := ⟨rfl, rfl, rfl, rfl, rfl, rfl, rfl, rfl⟩
  scr := by decide
  flashBase := rfl
  keys := by decide
  ctr8 := by decide
  iv := by decide
  blobPt := by decide
  blobCt := by decide
  buffers := fun _ => rfl

/-- Settles O6: a reset gives every register its value at State.reset. -/
theorem resetStepGivesResetValues : Obligations.ResetStepGivesResetValues := by
  unfold Obligations.ResetStepGivesResetValues
  intro s hr
  exact ⟨coreReset s, step_reset hr, { resetStateHasResetValues with flashBase := rfl, buffers := fun _ => rfl }, rfl⟩

/-- Settles O57: a command's event is its effect on BLOB_CT, and no host operation writes BLOB_CT. -/
theorem blobEventsTellBlobCt : Obligations.BlobEventsTellBlobCt := by
  unfold Obligations.BlobEventsTellBlobCt
  intro s t h
  rcases step_kinds h with ⟨hr, rfl⟩ | ⟨-, i, hi, hx⟩ | ⟨hr, hn, hh, ht⟩ | ⟨hr, hn, op, d, hh, ho⟩
  · rw [blobEvent_reset hr]
    exact fun i => Vector.getElem_replicate i.isLt
  · rw [blobEvent_performing hi]
    cases i with
    | kwrap =>
      cases herr : t.err with
      | none =>
        rw [commandEvent_kwrap_of_success herr]
        exact exec_kwrap_blobCt_of_success hx herr
      | some e =>
        rw [commandEvent_kwrap_of_error herr]
        exact exec_kwrap_blobCt_of_error hx herr
    | blobSwap => exact exec_blobSwap_blobCt hx
    | crc32 | scramble | buildBlob | extCtr | ctrCrypt => exact exec_blobCt hx (by decide) (by decide)
  · rw [blobEvent_idle hr hn hh]
    rcases ht with rfl | ⟨d, rfl⟩ <;> rfl
  · rw [blobEvent_host hr hn hh]
    have hkept : t.blobCt = s.blobCt := hostOp_blobCt (s := { s with delay := d }) ho
    split_ifs <;> exact hkept

/-- A step keeps what the stand says, when the wrap of a KWRAP performed in it counts. -/
theorem blobHolds_step {W : Bytes 48 → Prop} {s t : State} {q q' : BlobStand} {e : BlobEvent} (h : step s = .next t)
    (hW : performing s = some .kwrap → W s.wrappedBlob) (hq : BlobHolds W s q) (he : blobEvent s t = some e)
    (hnext : q.next e = some q') : BlobHolds W t q' := by
  have hblob := blobEventsTellBlobCt s t h
  rw [he] at hblob
  cases e with
  | wrapped =>
    have hraw : BlobHolds W t .raw := by
      change W t.blobCt
      rw [hblob]
      exact hW (performing_of_blobEvent_wrapped h he)
    cases q <;> cases hnext <;> exact hraw
  | swapped =>
    cases q <;> cases hnext
    · trivial
    · exact ⟨s.blobCt, hq, hblob⟩
  | read =>
    cases q <;> cases hnext
    · trivial
    · obtain ⟨w, hw, hs⟩ := hq
      exact ⟨w, hw, hblob.trans hs⟩
  | cleared =>
    cases q <;> cases hnext <;> trivial

/-- A step with no event leaves BLOB_CT, and with it what the stand says. -/
theorem blobHolds_step_of_none {W : Bytes 48 → Prop} {s t : State} {q : BlobStand} (h : step s = .next t)
    (hq : BlobHolds W s q) (he : blobEvent s t = none) : BlobHolds W t q := by
  have hblob := blobEventsTellBlobCt s t h
  rw [he] at hblob
  cases q with
  | noWrap => trivial
  | raw => exact (congrArg W hblob).mpr hq
  | swapped => exact hq.imp fun w ⟨hw, hs⟩ => ⟨hw, hblob.trans hs⟩

/-- A run that keeps the duty keeps what the stand says, when the wraps of its KWRAPs count. -/
theorem blobHolds_run {W : Bytes 48 → Prop} {n : Nat} {s t : State} {q q' : BlobStand}
    (hW : ∀ m < n, ∀ u, core.run m s = .next u → performing u = some .kwrap → W u.wrappedBlob)
    (hq : BlobHolds W s q) (hrun : core.run n s = .next t) (hafter : q.after (blobEvents n s) = some q') :
    BlobHolds W t q' := by
  induction n generalizing s q with
  | zero =>
    cases hrun
    cases hafter
    exact hq
  | succ n ih =>
    obtain ⟨u, hu, hrest⟩ := core_run_succ_next hrun
    rw [blobEvents_next hu] at hafter
    have hWs : performing s = some .kwrap → W s.wrappedBlob := hW 0 n.succ_pos s rfl
    have hWu : ∀ m < n, ∀ v, core.run m u = .next v → performing v = some .kwrap → W v.wrappedBlob :=
      fun m hm v hv => hW (m + 1) (Nat.succ_lt_succ hm) v ((core_run_next m hu).trans hv)
    cases he : blobEvent s u with
    | none =>
      rw [he] at hafter
      exact ih hWu (blobHolds_step_of_none hu hq he) hrest hafter
    | some e =>
      rw [he] at hafter
      obtain ⟨r, hnext, hafter⟩ := Option.bind_eq_some_iff.mp hafter
      exact ih hWu (blobHolds_step hu hWs hq he hnext) hrest hafter

/-- Settles O58: the wraps that count are those of the run's own KWRAPs. -/
theorem swappedOnceLeavesTheSwappedWrap : Obligations.SwappedOnceLeavesTheSwappedWrap := by
  unfold Obligations.SwappedOnceLeavesTheSwappedWrap
  intro n s t hrun hafter
  have hown : ∀ m < n, ∀ u, core.run m s = .next u → performing u = some .kwrap → WrapOfRun n s u.wrappedBlob :=
    fun m hm u hu hk => ⟨m, hm, u, hu, hk, rfl⟩
  obtain ⟨w, ⟨m, hm, u, hu, hk, rfl⟩, hs⟩ := blobHolds_run (q := .noWrap) hown trivial hrun hafter
  exact ⟨m, hm, u, hu, hk, hs⟩

/-- Settles O53: each order ends with both paths' outputs and the draws of both commands used. -/
theorem pathsAreIndependent : Obligations.PathsAreIndependent := by
  unfold Obligations.PathsAreIndependent
  intro s i j hi hj hok
  obtain ⟨n, hn, e, a, hkey⟩ := performs_keyPath hi s
  obtain ⟨m, hm, e', b, himage⟩ := performs_imagePath hj s
  have hfree {k l : Nat} (h : k + l ≤ n + m) : NoAesFailure (s.afterDraws k) l :=
    noAesFailure_afterDraws hok (by omega)
  have hfirst : exec i s = .next (complete e ((s.keyPathOf a).afterDraws (0 + n))) := hkey s 0 (hfree (by omega))
  have hfirst' : exec j s = .next (complete e' ((s.imagePathOf b).afterDraws (0 + m))) :=
    himage s 0 (hfree (by omega))
  have hsecond := himage (complete e a) n (hfree le_rfl)
  have hsecond' := hkey (complete e' b) m (hfree (Nat.add_comm m n).le)
  rw [Nat.zero_add] at hfirst hfirst'
  rw [Nat.add_comm m n] at hsecond'
  rw [hfirst, hfirst']
  change mapNext _ (exec j ((s.keyPathOf (complete e a)).afterDraws n)) =
    mapNext _ (exec i ((s.imagePathOf (complete e' b)).afterDraws m))
  rw [hsecond, hsecond']
  rfl

/-- Settles O59: a run from reset keeps every register word known, and operands are register words. -/
theorem fromResetMeetsOperandPremise : Obligations.FromResetMeetsOperandPremise := by
  unfold Obligations.FromResetMeetsOperandPremise
  intro n s h
  refine alongRun_of_invariant (fun _ _ _ hs => hs.step) (fun W s hs => ?_) (registersKnown_of_fromReset h)
  simp only [List.all_eq_true]
  exact fun i _ p hp => hs p.1 p.2 (registerWord_of_mem_operandWords s.cfg hp)

/-- Settles O60: a run keeps the written words of DATA_IN stored, and the words a command reads hold its bytes. -/
theorem writtenInputIsStored : Obligations.WrittenInputIsStored := by
  unfold Obligations.WrittenInputIsStored
  intro n m s u i hdata hm hu hi
  obtain ⟨W, hs, hW⟩ := alongRun_reached (I := InputStored) (fun _ _ _ hs => hs.step) hdata
    (fun _ hk => nomatch hk) hm hu
  have hwritten : ∀ p ∈ inputWords i u, p ∈ W := by simpa [hi] using hW
  have hstored {n : Nat} (h : inputWords i u = wordsOf .dataIn n) : ∀ k < n, WordStored u k := fun k hk =>
    hs k (hwritten _ (h ▸ mem_wordsOf.mpr ⟨rfl, hk⟩))
  refine ⟨?_, ?_⟩
  · rintro rfl hcap
    exact dataInWritten_of_wordStored (hstored (if_pos hcap))
  · rintro rfl hlen
    have hmod := (ctrLengthOk_iff.mp hlen).2
    exact dataInWritten_of_wordStored fun k hk => hstored (if_pos hlen) k (by omega)

end Sys2Proof.Claims
